-- ==== Sys2Proof/Word.lean ====
section
/-!
DEFINITION. Bytes, the 4-byte word and the 16-byte block: the data shapes of the engine (spec/00_scope.md R9,
spec/42_aes_block_cipher.md R135, R140). No operation stands here: every operation on them is in a file under Machine/.
-/

namespace Sys2Proof

/-- A byte, bit 7 the most significant (R9). -/
abbrev Byte := BitVec 8

/-- A word: a 4-byte sequence `[b0, b1, b2, b3]`, `b0` the first byte and the most significant one (R140). -/
structure Word where
  b0 : Byte
  b1 : Byte
  b2 : Byte
  b3 : Byte
  deriving DecidableEq, Repr

/-- A block of 16 bytes as the four columns of the AES state: the byte at row `r`, column `c` is byte `r` of column
`c`, which is byte `r + 4*c` of the block (R135). -/
structure Block where
  c0 : Word
  c1 : Word
  c2 : Word
  c3 : Word
  deriving DecidableEq, Repr

end Sys2Proof
end

