-- ==== Sys2Proof/Config.lean ====
section
/-!
DEFINITION. The values the spec leaves open (spec/00_scope.md R8, spec/93_implementation_defined.md U2, U3, U6, U11, U13).
Each is a constant without a body, so no proof can see its value: a theorem about the model holds whatever it is.
The other parameters of R8 (the capacity, the key, the presence and the choice of the fingerprint function) are plain
data of State, so a theorem over all states is a theorem over all of them.
-/

namespace Sys2Proof

/-- How many bytes beyond twelve the fingerprint function number `id` returns, so that FPLEN is twelve or more
(R8, R95, decision D16). Assumption 4. -/
opaque Config.fpTail (id : Nat) : Nat

/-- The fingerprint functions FP a platform may configure, numbered: `FP(c, d)` of function `id` (R8, R95, U11).
Nothing is known of it but that its result depends on the arguments alone and has twelve bytes or more. Assumption 4. -/
opaque Config.fpBytes (id : Nat) (c d : List Byte) : Vector Byte (12 + Config.fpTail id)

/-- The value of the RNG at its draw number `k`, where the state's input queue gives none (R235, U13).
Assumption 5. -/
opaque Config.freeDraw (k : Nat) : BitVec 32

/-- What the payload byte at address `a` holds while no rule gives its value, in the epoch numbered `e`
(R35, R52, R210, U2, U3, U6). Assumption 6. -/
opaque Config.freeByte (e a : Nat) : Byte

/-- The number from which the unspecified PLEN of a failed ENCRYPT is made, in the epoch numbered `e` (R210, U2).
Assumption 7. -/
opaque Config.freeLength (e : Nat) : Nat

end Sys2Proof
end

