-- ==== Sys2Proof/Syntax.lean ====
section
/-!
DEFINITION. The commands of the engine: one constructor per row of spec/opcode_table.json (spec/30_encoding.md R71).
Both commands take all their operands implicitly (R73), so neither constructor has an argument.
-/

namespace Sys2Proof

/-- The command set (R71). -/
inductive Instr where
  /-- ENCRYPT, command code `0x01`, meaning R200. -/
  | encrypt
  /-- DECRYPT, command code `0x02`, meaning R180. -/
  | decrypt
  deriving DecidableEq, Repr

end Sys2Proof
end

