-- ==== Sys2Proof/WellFormed.lean ====
section
/-!
DEFINITION. Well-formedness. A command has no operand field (spec/30_encoding.md R70, R73), so every term of Instr is
well formed; the one check there is at this level is on the command word: its code is assigned or reserved (R71, R72).
-/

namespace Sys2Proof

/-- Every command is well formed: there is no operand that could be out of range (R73). -/
def Instr.wf (i : Instr) : Bool :=
  match i with
  | .encrypt => true
  | .decrypt => true

/-- A command word is well formed when its code is one that R71 assigns; every other code is reserved (R72). -/
def commandWordWf (w : Byte) : Bool :=
  w == 0x01#8 || w == 0x02#8

end Sys2Proof
end

