-- ==== Sys2Proof/Decode.lean ====
section
/-!
DEFINITION. The decoder and the encoder of command words, from the opcode table (spec/opcode_table.json,
spec/30_encoding.md R70 to R72). One format, CMDW: eight bits, one field OP = CMDW[7:0], compared whole (mask 0xFF).
-/

namespace Sys2Proof

/-- Why a command word is no command. -/
inductive DecodeReject where
  /-- The code is none of those R71 assigns (R72). -/
  | reservedCode (w : Byte)
  deriving DecidableEq, Repr

/-- One row of the opcode table: a word belongs to the row when its bits under `mask` are `pattern`. -/
structure OpcodeRow where
  mask : Byte
  pattern : Byte
  instr : Instr
  deriving DecidableEq, Repr

/-- The opcode table (R71). -/
def opcodeTable : List OpcodeRow :=
  [ { mask := 0xFF#8, pattern := 0x01#8, instr := .encrypt },
    { mask := 0xFF#8, pattern := 0x02#8, instr := .decrypt } ]

/-- Whether a command word belongs to a row. -/
def OpcodeRow.holds (r : OpcodeRow) (w : Byte) : Bool :=
  w &&& r.mask == r.pattern

/-- The first row of `rows` that holds the word, or the rejection by name. -/
def decodeIn (w : Byte) (rows : List OpcodeRow) : Except DecodeReject Instr :=
  match rows with
  | [] => .error (.reservedCode w)
  | r :: rest => if r.holds w then .ok r.instr else decodeIn w rest

/-- The command a command word stands for (R70, R71), or its rejection as reserved (R72). -/
def decode (w : Byte) : Except DecodeReject Instr :=
  decodeIn w opcodeTable

/-- The command word of a command (R71). -/
def encode (i : Instr) : Byte :=
  match i with
  | .encrypt => 0x01#8
  | .decrypt => 0x02#8

/-- The decoder at a word given as a number, its lowest `nbits` bits (the host's question about a table row). -/
def decodeTableWord (nbits w : Nat) : Option Instr :=
  match decode (BitVec.ofNat 8 (w % 2 ^ nbits)) with
  | .ok i => some i
  | .error _ => none

end Sys2Proof
end

