-- ==== Sys2Proof/Machine/State.lean ====
section
/-!
DEFINITION. The state of the engine and of its environment, as plain data (spec/10_state.md), the reasons a step can stop,
and the state after reset (R35). The configuration of R20 and the capacity of R8 are fields of the state: every theorem
over all states is one over all configurations.
-/

namespace Sys2Proof.Machine

/-- KEY and KSEL in one: the "tagged union" of a 16-byte and a 32-byte key (R20, R21). The tag is KSEL. -/
inductive Key where
  /-- KSEL = 0: the AES-128 key, 16 bytes. -/
  | aes128 (k : Block)
  /-- KSEL = 1: the AES-256 key, 32 bytes, `lo` its bytes 0 to 15 and `hi` its bytes 16 to 31. -/
  | aes256 (lo hi : Block)
  deriving DecidableEq, Repr

/-- Which fingerprint function FP is configured (R8, R20), by name; Machine/Context.lean gives each its meaning. -/
inductive Fingerprint where
  /-- The platform's function number `id`, of which nothing is known (U11). -/
  | keyed (id : Nat)
  /-- `FP_TEST`, the stand-in that spec/95_test_vectors.md section 2 defines. -/
  | fpTest
  deriving DecidableEq, Repr

/-- The configuration that is sampled when reset is released (R20). FPEN is whether `fp` is present: R20 makes the
two one and the same bit. -/
structure Sampled where
  key : Key
  fp : Option Fingerprint
  deriving DecidableEq, Repr

/-- The result of the last completed command, by name (R28, R220). The codes 8 to 14 never occur (U10). -/
inductive Err where
  | success
  | notEncrypted
  | malformedPacket
  | malformedBody
  | integrityFailure
  | decryptFailure
  | encryptFailure
  | lengthExceedsCapacity
  | illegalCommand
  deriving DecidableEq, Repr

/-- The two agents that take steps (R6, R31). The RNG, the third, takes none: its values are inputs of ENCRYPT. -/
inductive Agent where
  | host
  | engine
  deriving DecidableEq, Repr

/-- One indivisible move of the outside world: the lines of R75, with a byte sequence taken byte by byte (R56), and the
release of reset (R250). -/
inductive HostOp where
  /-- `WR`: write the register with that number (R32). -/
  | wr (no : Nat) (v : BitVec 32)
  /-- `RD`: read the register with that number. -/
  | rd (no : Nat)
  /-- One byte of `WRB`: write the payload byte at that address. -/
  | wrb (a : Nat) (b : Byte)
  /-- One byte of `RDB`: read the payload byte at that address. -/
  | rdb (a : Nat)
  /-- `WAIT`: read STATUS until it returns BUSY = 0. -/
  | wait
  /-- Reset, with the configuration inputs that are sampled at its release (R250). -/
  | reset (c : Sampled)
  deriving DecidableEq, Repr

/-- What one read of the host returned. -/
inductive HostRead where
  | reg (no : Nat) (v : BitVec 32)
  | byte (a : Nat) (b : Byte)
  deriving DecidableEq, Repr

/-- Payload memory: the bytes whose values the rules give, by address, addresses strictly rising. An address that is
not listed has no value of its own; what a read of it gives is `State.byteAt` of Machine/Ops.lean. -/
abbrev Memory := List Host.Cell

/-- The state of the machine. The first thirteen fields after the capacity are the architectural state of
spec/10_state.md; the last six belong to the model: the free values' counters and the environment's pending moves. -/
structure State where
  /-- PCAP, the capacity of PB in bytes (R8, D35); no step changes it. -/
  pcap : Fin 65536
  /-- KSEL, KEY, FPEN, FP (R20). -/
  cfg : Sampled
  /-- HSRC, the source address (R24). -/
  hsrc : BitVec 32
  /-- HDST, the destination address (R24). -/
  hdst : BitVec 32
  /-- HIPROTO, the inner protocol id (R24). -/
  hiproto : Byte
  /-- HTPROTO, the transport protocol id (R24). -/
  htproto : Byte
  /-- HTTL, the source TTL (R24). -/
  httl : Byte
  /-- HGW, the gateway flag (R24). -/
  hgw : Bool
  /-- ENC, the packet's "encrypted" flag (R25). -/
  enc : Bool
  /-- PLEN, the payload length in bytes (R26). -/
  plen : BitVec 16
  /-- PB, the payload buffer (R27). -/
  pb : Memory
  /-- ERR, the result of the last completed command (R28). -/
  err : Err
  /-- BUSY, 1 from the issue of a command to its completion (R29). -/
  busy : Bool
  /-- CMDL, the code of the command in flight (R30). -/
  cmdl : Byte
  /-- The model's own: numbers the epochs of unspecified payload bytes (assumption 6). -/
  epoch : Nat
  /-- The model's own: how many draws the RNG has delivered (assumption 5). -/
  draws : Nat
  /-- The environment's: the values the RNG will deliver next, oldest first (R235, assumption 5). -/
  rng : List (BitVec 32)
  /-- The environment's: which agent moves next, as far as that is laid down (R31, assumption 8). -/
  sched : List Agent
  /-- The environment's: the host program still to be run (R75, assumption 9). -/
  script : List HostOp
  /-- The environment's: what the host has read, newest first (assumption 9). -/
  reads : List HostRead
  deriving DecidableEq, Repr

/-- Why a step stops with a fault. A state that meets `State.Inv` of Safety.lean never leads to one. -/
inductive Fault where
  /-- `MemRead` or `MemWrite` of `n` bytes from address `a` with `a + n > PCAP`, where R10 defines neither. Raised by
  Machine/Ops.lean. Safe: the machine stops, and no state that keeps the invariant of R36 meets it (R51). -/
  | payloadRange (a n : Nat)
  /-- `MemWrite` of `n` bytes with a sequence of another length, where R10 does not define it. Raised by
  Machine/Ops.lean. Safe: the machine stops, and no command makes such a call. -/
  | writeLength (n len : Nat)
  deriving DecidableEq, Repr

/-- Why a step is refused. Each but the first is a move the spec takes out of the contract and says a model refuses. -/
inductive Refusal where
  /-- A command without a meaning yet; raised by Machine/Dispatch.lean alone. Safe. -/
  | notModelled (mnemonic : String)
  /-- `SetRandomNonce` on an encryption region of fewer than four bytes (R113, U8, D31). Raised by
  Machine/Codec.lean. Safe; no command makes such a call. -/
  | nonceRegionTooShort (elen : Nat)
  /-- A host access other than a read of STATUS while BUSY = 1 (R252, U5). Raised by Machine/HostPort.lean. Safe. -/
  | hostAccessWhileBusy
  /-- A host access to a register number of 8 or above (R32, U4). Raised by Machine/HostPort.lean. Safe. -/
  | noSuchRegister (no : Nat)
  /-- A host read of CMD, which is write-only (R32, U4). Raised by Machine/HostPort.lean. Safe. -/
  | readOfWriteOnly (no : Nat)
  /-- A host write of STATUS or INFO, which are read-only (R32, U4). Raised by Machine/HostPort.lean. Safe. -/
  | writeOfReadOnly (no : Nat)
  /-- A host write of a value above PCAP to PLEN (R26, U7). Raised by Machine/HostPort.lean. Safe. -/
  | lengthAboveCapacity (v : Nat)
  /-- A host access to a payload address of PCAP or above (R51, U9). Raised by Machine/HostPort.lean. Safe. -/
  | payloadAddress (a : Nat)
  deriving DecidableEq, Repr

/-- The outcomes of a step of this machine. -/
abbrev Result := Host.Outcome State Fault Refusal

/-- The configuration inputs that `State.reset` samples. DESIGN CHOICE: R20 makes them inputs and names no value; an
AES-128 key of zeros without a fingerprint function is taken (assumption 1). -/
def Sampled.default : Sampled where
  key := .aes128 ⟨⟨0#8, 0#8, 0#8, 0#8⟩, ⟨0#8, 0#8, 0#8, 0#8⟩, ⟨0#8, 0#8, 0#8, 0#8⟩, ⟨0#8, 0#8, 0#8, 0#8⟩⟩
  fp := none

/-- The machine right after reset (R35, R250). BUSY, ERR, PLEN and ENC are R35's values. DESIGN CHOICE for the rest: the
sampled configuration (assumption 1), the capacity (assumption 2), and zero in the header registers and CMDL, which R35
leaves unspecified (assumption 3). No payload byte has a value (assumption 6). The environment has no move pending. -/
def State.reset : State where
  pcap := 65535
  cfg := Sampled.default
  hsrc := 0#32
  hdst := 0#32
  hiproto := 0#8
  htproto := 0#8
  httl := 0#8
  hgw := false
  enc := false
  plen := 0#16
  pb := []
  err := .success
  busy := false
  cmdl := 0#8
  epoch := 0
  draws := 0
  rng := []
  sched := []
  script := []
  reads := []

end Sys2Proof.Machine
end

