-- ==== Sys2Proof/Machine/Bytes.lean ====
section
/-!
DEFINITION. Byte sequences, words and blocks: the bitwise exclusive or, byte order, and the passage between a byte
sequence and the blocks it is made of (spec/00_scope.md R9, spec/20_memory.md R54, spec/42_aes_block_cipher.md R135, R140).
-/

namespace Sys2Proof.Machine

/-- `xor` of two words, bytewise (R140). -/
def wordXor (x y : Word) : Word :=
  ⟨x.b0 ^^^ y.b0, x.b1 ^^^ y.b1, x.b2 ^^^ y.b2, x.b3 ^^^ y.b3⟩

/-- `xor` of two blocks, bytewise (R9). -/
def blockXor (x y : Block) : Block :=
  ⟨wordXor x.c0 y.c0, wordXor x.c1 y.c1, wordXor x.c2 y.c2, wordXor x.c3 y.c3⟩

/-- The word of zeros. -/
def zeroWord : Word := ⟨0#8, 0#8, 0#8, 0#8⟩

/-- The four bytes of a word in order (R140). -/
def wordBytes (w : Word) : List Byte := [w.b0, w.b1, w.b2, w.b3]

/-- The sixteen bytes of a block in order: column by column (R135). -/
def blockBytes (b : Block) : List Byte :=
  wordBytes b.c0 ++ wordBytes b.c1 ++ wordBytes b.c2 ++ wordBytes b.c3

/-- The bytes of a sequence of blocks, one block after the other. -/
def blocksBytes (bs : List Block) : List Byte :=
  match bs with
  | [] => []
  | b :: rest => blockBytes b ++ blocksBytes rest

/-- The whole words of a byte sequence in order; bytes that do not fill a word are left out. -/
def toWords (x : List Byte) : List Word :=
  match x with
  | b0 :: b1 :: b2 :: b3 :: rest => ⟨b0, b1, b2, b3⟩ :: toWords rest
  | _ => []

/-- The blocks that a sequence of words fills, in order. -/
def wordsToBlocks (ws : List Word) : List Block :=
  match ws with
  | w0 :: w1 :: w2 :: w3 :: rest => ⟨w0, w1, w2, w3⟩ :: wordsToBlocks rest
  | _ => []

/-- The whole blocks of a byte sequence in order (R162, R164). -/
def toBlocks (x : List Byte) : List Block :=
  wordsToBlocks (toWords x)

/-- The block that a 16-byte sequence is; a shorter one is filled up with zeros, which no rule does. -/
def toBlock (x : List Byte) : Block :=
  (toBlocks x).headD ⟨zeroWord, zeroWord, zeroWord, zeroWord⟩

/-- `be32(v)`: the four bytes of a 32-bit value, most significant first (R9). -/
def be32 (v : BitVec 32) : List Byte :=
  [v.extractLsb' 24 8, v.extractLsb' 16 8, v.extractLsb' 8 8, v.extractLsb' 0 8]

/-- `rep(v, n)`: `n` bytes of value `v` (R9). -/
def rep (v : Byte) (n : Nat) : List Byte := List.replicate n v

/-- `round_up_16(x)`: the least multiple of 16 that is not less than `x` (R9). -/
def roundUp16 (x : Nat) : Nat := 16 * ((x + 15) / 16)

end Sys2Proof.Machine
end

