-- ==== Sys2Proof/Machine/Aes.lean ====
section
/-!
DEFINITION. The AES-128 / AES-256 block cipher engine (spec/42_aes_block_cipher.md R130 to R147): field arithmetic, the
substitution tables, the four round transformations and their inverses, the key schedule, the cipher and its inverse.
-/

namespace Sys2Proof.Machine

/-! ### Field arithmetic -/

/-- `xtime(a)`: multiplication by `x` modulo `0x11b` (R132). -/
def xtime (a : Byte) : Byte :=
  if a.getLsbD 7 then (a <<< 1) ^^^ 0x1b#8 else a <<< 1

/-- `xtime` applied `i` times (R132). -/
def xtimes (i : Nat) (a : Byte) : Byte :=
  match i with
  | 0 => a
  | k + 1 => xtime (xtimes k a)

/-- The exclusive or of `xtimes i a` over the set bits `i` of `b` below `n` (R132). -/
def gmulBits (n : Nat) (a b : Byte) : Byte :=
  match n with
  | 0 => 0x00#8
  | k + 1 => if b.getLsbD k then gmulBits k a b ^^^ xtimes k a else gmulBits k a b

/-- `gmul(a, b)`: multiplication in GF(2^8) (R132). -/
def gmul (a b : Byte) : Byte := gmulBits 8 a b

/-- `rotl8(b, k)`: the bits of `b` rotated left by `k` places (R133). -/
def rotl8 (b : Byte) (k : Nat) : Byte := b.rotateLeft k

/-- `aff(b)`, the affine map of the S-box formula (R133). -/
def aff (b : Byte) : Byte :=
  b ^^^ rotl8 b 1 ^^^ rotl8 b 2 ^^^ rotl8 b 3 ^^^ rotl8 b 4 ^^^ 0x63#8

/-! ### The substitution tables -/

/-- The table `SBOX`: row `h`, column `l` is the value at the byte with high digit `h` and low digit `l` (R134). -/
def sboxRows : List (List Byte) :=
  [ [0x63#8, 0x7c#8, 0x77#8, 0x7b#8, 0xf2#8, 0x6b#8, 0x6f#8, 0xc5#8, 0x30#8, 0x01#8, 0x67#8, 0x2b#8, 0xfe#8, 0xd7#8, 0xab#8, 0x76#8],
    [0xca#8, 0x82#8, 0xc9#8, 0x7d#8, 0xfa#8, 0x59#8, 0x47#8, 0xf0#8, 0xad#8, 0xd4#8, 0xa2#8, 0xaf#8, 0x9c#8, 0xa4#8, 0x72#8, 0xc0#8],
    [0xb7#8, 0xfd#8, 0x93#8, 0x26#8, 0x36#8, 0x3f#8, 0xf7#8, 0xcc#8, 0x34#8, 0xa5#8, 0xe5#8, 0xf1#8, 0x71#8, 0xd8#8, 0x31#8, 0x15#8],
    [0x04#8, 0xc7#8, 0x23#8, 0xc3#8, 0x18#8, 0x96#8, 0x05#8, 0x9a#8, 0x07#8, 0x12#8, 0x80#8, 0xe2#8, 0xeb#8, 0x27#8, 0xb2#8, 0x75#8],
    [0x09#8, 0x83#8, 0x2c#8, 0x1a#8, 0x1b#8, 0x6e#8, 0x5a#8, 0xa0#8, 0x52#8, 0x3b#8, 0xd6#8, 0xb3#8, 0x29#8, 0xe3#8, 0x2f#8, 0x84#8],
    [0x53#8, 0xd1#8, 0x00#8, 0xed#8, 0x20#8, 0xfc#8, 0xb1#8, 0x5b#8, 0x6a#8, 0xcb#8, 0xbe#8, 0x39#8, 0x4a#8, 0x4c#8, 0x58#8, 0xcf#8],
    [0xd0#8, 0xef#8, 0xaa#8, 0xfb#8, 0x43#8, 0x4d#8, 0x33#8, 0x85#8, 0x45#8, 0xf9#8, 0x02#8, 0x7f#8, 0x50#8, 0x3c#8, 0x9f#8, 0xa8#8],
    [0x51#8, 0xa3#8, 0x40#8, 0x8f#8, 0x92#8, 0x9d#8, 0x38#8, 0xf5#8, 0xbc#8, 0xb6#8, 0xda#8, 0x21#8, 0x10#8, 0xff#8, 0xf3#8, 0xd2#8],
    [0xcd#8, 0x0c#8, 0x13#8, 0xec#8, 0x5f#8, 0x97#8, 0x44#8, 0x17#8, 0xc4#8, 0xa7#8, 0x7e#8, 0x3d#8, 0x64#8, 0x5d#8, 0x19#8, 0x73#8],
    [0x60#8, 0x81#8, 0x4f#8, 0xdc#8, 0x22#8, 0x2a#8, 0x90#8, 0x88#8, 0x46#8, 0xee#8, 0xb8#8, 0x14#8, 0xde#8, 0x5e#8, 0x0b#8, 0xdb#8],
    [0xe0#8, 0x32#8, 0x3a#8, 0x0a#8, 0x49#8, 0x06#8, 0x24#8, 0x5c#8, 0xc2#8, 0xd3#8, 0xac#8, 0x62#8, 0x91#8, 0x95#8, 0xe4#8, 0x79#8],
    [0xe7#8, 0xc8#8, 0x37#8, 0x6d#8, 0x8d#8, 0xd5#8, 0x4e#8, 0xa9#8, 0x6c#8, 0x56#8, 0xf4#8, 0xea#8, 0x65#8, 0x7a#8, 0xae#8, 0x08#8],
    [0xba#8, 0x78#8, 0x25#8, 0x2e#8, 0x1c#8, 0xa6#8, 0xb4#8, 0xc6#8, 0xe8#8, 0xdd#8, 0x74#8, 0x1f#8, 0x4b#8, 0xbd#8, 0x8b#8, 0x8a#8],
    [0x70#8, 0x3e#8, 0xb5#8, 0x66#8, 0x48#8, 0x03#8, 0xf6#8, 0x0e#8, 0x61#8, 0x35#8, 0x57#8, 0xb9#8, 0x86#8, 0xc1#8, 0x1d#8, 0x9e#8],
    [0xe1#8, 0xf8#8, 0x98#8, 0x11#8, 0x69#8, 0xd9#8, 0x8e#8, 0x94#8, 0x9b#8, 0x1e#8, 0x87#8, 0xe9#8, 0xce#8, 0x55#8, 0x28#8, 0xdf#8],
    [0x8c#8, 0xa1#8, 0x89#8, 0x0d#8, 0xbf#8, 0xe6#8, 0x42#8, 0x68#8, 0x41#8, 0x99#8, 0x2d#8, 0x0f#8, 0xb0#8, 0x54#8, 0xbb#8, 0x16#8] ]

/-- The table `INVSBOX`, laid out like `SBOX` (R134). -/
def invSboxRows : List (List Byte) :=
  [ [0x52#8, 0x09#8, 0x6a#8, 0xd5#8, 0x30#8, 0x36#8, 0xa5#8, 0x38#8, 0xbf#8, 0x40#8, 0xa3#8, 0x9e#8, 0x81#8, 0xf3#8, 0xd7#8, 0xfb#8],
    [0x7c#8, 0xe3#8, 0x39#8, 0x82#8, 0x9b#8, 0x2f#8, 0xff#8, 0x87#8, 0x34#8, 0x8e#8, 0x43#8, 0x44#8, 0xc4#8, 0xde#8, 0xe9#8, 0xcb#8],
    [0x54#8, 0x7b#8, 0x94#8, 0x32#8, 0xa6#8, 0xc2#8, 0x23#8, 0x3d#8, 0xee#8, 0x4c#8, 0x95#8, 0x0b#8, 0x42#8, 0xfa#8, 0xc3#8, 0x4e#8],
    [0x08#8, 0x2e#8, 0xa1#8, 0x66#8, 0x28#8, 0xd9#8, 0x24#8, 0xb2#8, 0x76#8, 0x5b#8, 0xa2#8, 0x49#8, 0x6d#8, 0x8b#8, 0xd1#8, 0x25#8],
    [0x72#8, 0xf8#8, 0xf6#8, 0x64#8, 0x86#8, 0x68#8, 0x98#8, 0x16#8, 0xd4#8, 0xa4#8, 0x5c#8, 0xcc#8, 0x5d#8, 0x65#8, 0xb6#8, 0x92#8],
    [0x6c#8, 0x70#8, 0x48#8, 0x50#8, 0xfd#8, 0xed#8, 0xb9#8, 0xda#8, 0x5e#8, 0x15#8, 0x46#8, 0x57#8, 0xa7#8, 0x8d#8, 0x9d#8, 0x84#8],
    [0x90#8, 0xd8#8, 0xab#8, 0x00#8, 0x8c#8, 0xbc#8, 0xd3#8, 0x0a#8, 0xf7#8, 0xe4#8, 0x58#8, 0x05#8, 0xb8#8, 0xb3#8, 0x45#8, 0x06#8],
    [0xd0#8, 0x2c#8, 0x1e#8, 0x8f#8, 0xca#8, 0x3f#8, 0x0f#8, 0x02#8, 0xc1#8, 0xaf#8, 0xbd#8, 0x03#8, 0x01#8, 0x13#8, 0x8a#8, 0x6b#8],
    [0x3a#8, 0x91#8, 0x11#8, 0x41#8, 0x4f#8, 0x67#8, 0xdc#8, 0xea#8, 0x97#8, 0xf2#8, 0xcf#8, 0xce#8, 0xf0#8, 0xb4#8, 0xe6#8, 0x73#8],
    [0x96#8, 0xac#8, 0x74#8, 0x22#8, 0xe7#8, 0xad#8, 0x35#8, 0x85#8, 0xe2#8, 0xf9#8, 0x37#8, 0xe8#8, 0x1c#8, 0x75#8, 0xdf#8, 0x6e#8],
    [0x47#8, 0xf1#8, 0x1a#8, 0x71#8, 0x1d#8, 0x29#8, 0xc5#8, 0x89#8, 0x6f#8, 0xb7#8, 0x62#8, 0x0e#8, 0xaa#8, 0x18#8, 0xbe#8, 0x1b#8],
    [0xfc#8, 0x56#8, 0x3e#8, 0x4b#8, 0xc6#8, 0xd2#8, 0x79#8, 0x20#8, 0x9a#8, 0xdb#8, 0xc0#8, 0xfe#8, 0x78#8, 0xcd#8, 0x5a#8, 0xf4#8],
    [0x1f#8, 0xdd#8, 0xa8#8, 0x33#8, 0x88#8, 0x07#8, 0xc7#8, 0x31#8, 0xb1#8, 0x12#8, 0x10#8, 0x59#8, 0x27#8, 0x80#8, 0xec#8, 0x5f#8],
    [0x60#8, 0x51#8, 0x7f#8, 0xa9#8, 0x19#8, 0xb5#8, 0x4a#8, 0x0d#8, 0x2d#8, 0xe5#8, 0x7a#8, 0x9f#8, 0x93#8, 0xc9#8, 0x9c#8, 0xef#8],
    [0xa0#8, 0xe0#8, 0x3b#8, 0x4d#8, 0xae#8, 0x2a#8, 0xf5#8, 0xb0#8, 0xc8#8, 0xeb#8, 0xbb#8, 0x3c#8, 0x83#8, 0x53#8, 0x99#8, 0x61#8],
    [0x17#8, 0x2b#8, 0x04#8, 0x7e#8, 0xba#8, 0x77#8, 0xd6#8, 0x26#8, 0xe1#8, 0x69#8, 0x14#8, 0x63#8, 0x55#8, 0x21#8, 0x0c#8, 0x7d#8] ]

/-- The entry of a 16 by 16 table at a byte: row the high digit, column the low digit (R134). -/
def tableAt (rows : List (List Byte)) (a : Byte) : Byte :=
  (rows.getD (a.toNat / 16) []).getD (a.toNat % 16) 0x00#8

/-- `SBOX(a)` (R133, R134). -/
def sbox (a : Byte) : Byte := tableAt sboxRows a

/-- `INVSBOX(a)` (R133, R134). -/
def invSbox (a : Byte) : Byte := tableAt invSboxRows a

/-! ### The round transformations and their inverses -/

/-- `SubWord`: `SBOX` on each byte of a word (R140). -/
def subWord (w : Word) : Word := ⟨sbox w.b0, sbox w.b1, sbox w.b2, sbox w.b3⟩

/-- `INVSBOX` on each byte of a word (R143). -/
def invSubWord (w : Word) : Word := ⟨invSbox w.b0, invSbox w.b1, invSbox w.b2, invSbox w.b3⟩

/-- `SubBytes` (R136). -/
def subBytes (s : Block) : Block := ⟨subWord s.c0, subWord s.c1, subWord s.c2, subWord s.c3⟩

/-- `InvSubBytes` (R143). -/
def invSubBytes (s : Block) : Block := ⟨invSubWord s.c0, invSubWord s.c1, invSubWord s.c2, invSubWord s.c3⟩

/-- `ShiftRows`: row `r` is rotated left by `r` columns (R137). -/
def shiftRows (s : Block) : Block :=
  ⟨⟨s.c0.b0, s.c1.b1, s.c2.b2, s.c3.b3⟩, ⟨s.c1.b0, s.c2.b1, s.c3.b2, s.c0.b3⟩,
    ⟨s.c2.b0, s.c3.b1, s.c0.b2, s.c1.b3⟩, ⟨s.c3.b0, s.c0.b1, s.c1.b2, s.c2.b3⟩⟩

/-- `InvShiftRows`: row `r` is rotated right by `r` columns (R144). -/
def invShiftRows (s : Block) : Block :=
  ⟨⟨s.c0.b0, s.c3.b1, s.c2.b2, s.c1.b3⟩, ⟨s.c1.b0, s.c0.b1, s.c3.b2, s.c2.b3⟩,
    ⟨s.c2.b0, s.c1.b1, s.c0.b2, s.c3.b3⟩, ⟨s.c3.b0, s.c2.b1, s.c1.b2, s.c0.b3⟩⟩

/-- One column of `MixColumns` (R138). -/
def mixColumn (a : Word) : Word where
  b0 := gmul a.b0 0x02#8 ^^^ gmul a.b1 0x03#8 ^^^ a.b2 ^^^ a.b3
  b1 := a.b0 ^^^ gmul a.b1 0x02#8 ^^^ gmul a.b2 0x03#8 ^^^ a.b3
  b2 := a.b0 ^^^ a.b1 ^^^ gmul a.b2 0x02#8 ^^^ gmul a.b3 0x03#8
  b3 := gmul a.b0 0x03#8 ^^^ a.b1 ^^^ a.b2 ^^^ gmul a.b3 0x02#8

/-- One column of `InvMixColumns` (R145). -/
def invMixColumn (a : Word) : Word where
  b0 := gmul a.b0 0x0e#8 ^^^ gmul a.b1 0x0b#8 ^^^ gmul a.b2 0x0d#8 ^^^ gmul a.b3 0x09#8
  b1 := gmul a.b0 0x09#8 ^^^ gmul a.b1 0x0e#8 ^^^ gmul a.b2 0x0b#8 ^^^ gmul a.b3 0x0d#8
  b2 := gmul a.b0 0x0d#8 ^^^ gmul a.b1 0x09#8 ^^^ gmul a.b2 0x0e#8 ^^^ gmul a.b3 0x0b#8
  b3 := gmul a.b0 0x0b#8 ^^^ gmul a.b1 0x0d#8 ^^^ gmul a.b2 0x09#8 ^^^ gmul a.b3 0x0e#8

/-- `MixColumns` (R138). -/
def mixColumns (s : Block) : Block := ⟨mixColumn s.c0, mixColumn s.c1, mixColumn s.c2, mixColumn s.c3⟩

/-- `InvMixColumns` (R145). -/
def invMixColumns (s : Block) : Block :=
  ⟨invMixColumn s.c0, invMixColumn s.c1, invMixColumn s.c2, invMixColumn s.c3⟩

/-! ### The key schedule -/

/-- The schedule of a key: the number of rounds Nr of its variant and the words `W[0]` to `W[4*(Nr+1)-1]` (R141). -/
structure Schedule where
  nr : Nat
  words : List Word
  deriving DecidableEq, Repr

/-- The number of words of a key: 4 or 8 (R21, R130). -/
def Key.nk (k : Key) : Nat :=
  match k with
  | .aes128 _ => 4
  | .aes256 _ _ => 8

/-- The number of rounds of a key's variant: 10 or 14 (R21, R130). -/
def Key.nr (k : Key) : Nat :=
  match k with
  | .aes128 _ => 10
  | .aes256 _ _ => 14

/-- The words `W[0..Nk)`: the bytes of the key in order, four to a word (R141). -/
def Key.words (k : Key) : List Word :=
  match k with
  | .aes128 k => [k.c0, k.c1, k.c2, k.c3]
  | .aes256 lo hi => [lo.c0, lo.c1, lo.c2, lo.c3, hi.c0, hi.c1, hi.c2, hi.c3]

/-- `RotWord` (R140). -/
def rotWord (w : Word) : Word := ⟨w.b1, w.b2, w.b3, w.b0⟩

/-- The first byte of the round constant: `rc(1) = 0x01`, `rc(i+1) = xtime(rc(i))` (R140). -/
def rc (i : Nat) : Byte := xtimes (i - 1) 0x01#8

/-- The round constant `Rcon(i)` (R140). -/
def rcon (i : Nat) : Word := ⟨rc i, 0x00#8, 0x00#8, 0x00#8⟩

/-- What is added to `W[i-Nk]` to make `W[i]`, from `t = W[i-1]` (R141). -/
def scheduleTerm (nk i : Nat) (t : Word) : Word :=
  if i % nk = 0 then wordXor (subWord (rotWord t)) (rcon (i / nk))
  else if 6 < nk ∧ i % nk = 4 then subWord t
  else t

/-- `W[i]` from the words before it (R141). -/
def scheduleWord (nk i : Nat) (w : List Word) : Word :=
  wordXor (w.getD (i - nk) zeroWord) (scheduleTerm nk i (w.getD (i - 1) zeroWord))

/-- The words `w` continued by `n` words of the schedule (R141). -/
def expandWords (nk n : Nat) (w : List Word) : List Word :=
  match n with
  | 0 => w
  | k + 1 => expandWords nk k (w ++ [scheduleWord nk w.length w])

/-- `KeyExpansion(KEY)` (R141). -/
def keyExpansion (k : Key) : Schedule where
  nr := Key.nr k
  words := expandWords (Key.nk k) (4 * (Key.nr k + 1) - Key.nk k) (Key.words k)

/-! ### The cipher and its inverse -/

/-- The round key of round `j`: the words `W[4j]` to `W[4j+3]` (R139). -/
def Schedule.roundKey (w : Schedule) (j : Nat) : Block :=
  ⟨w.words.getD (4 * j) zeroWord, w.words.getD (4 * j + 1) zeroWord,
    w.words.getD (4 * j + 2) zeroWord, w.words.getD (4 * j + 3) zeroWord⟩

/-- `AddRoundKey(s, W, j)` (R139). -/
def addRoundKey (s : Block) (w : Schedule) (j : Nat) : Block := blockXor s (Schedule.roundKey w j)

/-- The state after `AddRoundKey(in, W, 0)` and the rounds 1 to `n` with `MixColumns` (R142). -/
def cipherRounds (w : Schedule) (n : Nat) (s : Block) : Block :=
  match n with
  | 0 => addRoundKey s w 0
  | j + 1 => addRoundKey (mixColumns (shiftRows (subBytes (cipherRounds w j s)))) w (j + 1)

/-- `Cipher(W, in)` (R142). -/
def cipher (w : Schedule) (s : Block) : Block :=
  addRoundKey (shiftRows (subBytes (cipherRounds w (w.nr - 1) s))) w w.nr

/-- The rounds `n` down to 1 with `InvMixColumns`, then the last step with round key 0 (R146). -/
def invCipherRounds (w : Schedule) (n : Nat) (s : Block) : Block :=
  match n with
  | 0 => addRoundKey (invSubBytes (invShiftRows s)) w 0
  | j + 1 => invCipherRounds w j (invMixColumns (addRoundKey (invSubBytes (invShiftRows s)) w (j + 1)))

/-- `InvCipher(W, in)` (R146). -/
def invCipher (w : Schedule) (s : Block) : Block :=
  invCipherRounds w (w.nr - 1) (addRoundKey s w w.nr)

end Sys2Proof.Machine
end

