-- ==== Sys2Proof/Machine/Cbc.lean ====
section
/-!
DEFINITION. The block mode and the block padding (spec/43_cbc_pkcs7.md R160 to R166): CBC under the schedule of the configured
key, and PKCS#7 padding.
-/

namespace Sys2Proof.Machine

/-- `Pad(m)`: `p` bytes of value `p` are added, `p` from 1 to 16, up to a multiple of 16 (R161). -/
def pad (m : List Byte) : List Byte :=
  m ++ rep (BitVec.ofNat 8 (16 - m.length % 16)) (16 - m.length % 16)

/-- CBC encryption of blocks after the block `prev` (R162). -/
def cbcEncBlocks (w : Schedule) (prev : Block) (xs : List Block) : List Block :=
  match xs with
  | [] => []
  | x :: rest => cipher w (blockXor x prev) :: cbcEncBlocks w (cipher w (blockXor x prev)) rest

/-- CBC decryption of blocks after the block `prev` (R164). -/
def cbcDecBlocks (w : Schedule) (prev : Block) (cs : List Block) : List Block :=
  match cs with
  | [] => []
  | c :: rest => blockXor (invCipher w c) prev :: cbcDecBlocks w c rest

/-- `CbcEnc(W, iv, x)` for a length that is a multiple of 16 (R162). -/
def cbcEnc (w : Schedule) (iv : Block) (x : List Byte) : List Byte :=
  blocksBytes (cbcEncBlocks w iv (toBlocks x))

/-- `CbcDec(W, iv, c)` for a length that is a multiple of 16 (R164). -/
def cbcDec (w : Schedule) (iv : Block) (c : List Byte) : List Byte :=
  blocksBytes (cbcDecBlocks w iv (toBlocks c))

/-- `CbcEncPad(W, iv, m)` (R163). -/
def cbcEncPad (w : Schedule) (iv : Block) (m : List Byte) : List Byte := cbcEnc w iv (pad m)

/-- `Unpad(x)`: the sequence without its padding, or nothing when the last byte is not from 1 to 16 or one of the
padding bytes differs from it (R165). -/
def unpad (x : List Byte) : Option (List Byte) :=
  match x.getLast? with
  | none => none
  | some p =>
    if p.toNat < 1 ∨ 16 < p.toNat then none
    else if (x.drop (x.length - p.toNat)).all (fun b => b == p) then some (x.take (x.length - p.toNat))
    else none

/-- `CbcDecUnpad(W, iv, c)`: nothing for a length that is not a positive multiple of 16 and for bad padding (R166). -/
def cbcDecUnpad (w : Schedule) (iv : Block) (c : List Byte) : Option (List Byte) :=
  if c.length = 0 ∨ c.length % 16 ≠ 0 then none else unpad (cbcDec w iv c)

end Sys2Proof.Machine
end

