-- ==== Sys2Proof/Machine/Ops.lean ====
section
/-!
DEFINITION. The named operations over the state: payload memory (spec/00_scope.md R10, spec/20_memory.md R51, R52), the
registers the commands write, the RNG draw (spec/60_exceptions.md R235), the end of a command and the raising of an error
(R10, R230), what a failed command leaves unspecified (R210), and reset (spec/10_state.md R35).
An error here is a typed result: nothing is saved, no mode changes and there is no handler (R230), so the counterpart of
taking an exception is `State.complete` with the error, and there is no return from one (R231).
-/

namespace Sys2Proof.Machine

/-! ### Payload memory as data -/

/-- The value the list gives the address, where it gives one. -/
def Memory.get? (m : Memory) (a : Nat) : Option Byte :=
  match m with
  | [] => none
  | c :: rest => if c.1 = a then some c.2 else Memory.get? rest a

/-- The list with address `a` holding `b`, addresses kept rising. -/
def Memory.set (m : Memory) (a : Nat) (b : Byte) : Memory :=
  match m with
  | [] => [(a, b)]
  | c :: rest =>
    if a < c.1 then (a, b) :: c :: rest
    else if a = c.1 then (a, b) :: rest
    else c :: Memory.set rest a b

/-- The list without the addresses of `k` and above. -/
def Memory.keepBelow (m : Memory) (k : Nat) : Memory :=
  m.filter fun c => decide (c.1 < k)

/-- The list with the bytes of `v` stored from address `a` up. -/
def Memory.setBytes (m : Memory) (a : Nat) (v : List Byte) : Memory :=
  match v with
  | [] => m
  | b :: rest => Memory.setBytes (Memory.set m a b) (a + 1) rest

/-- Every address of the list is above `k`, and they rise strictly. -/
def Memory.risesFrom (k : Nat) (m : Memory) : Bool :=
  match m with
  | [] => true
  | c :: rest => decide (k < c.1) && Memory.risesFrom c.1 rest

/-- The canonical form: addresses strictly rising. An unlisted address has no value, so no entry can equal it. -/
def Memory.wf (m : Memory) : Bool :=
  match m with
  | [] => true
  | c :: rest => Memory.risesFrom c.1 rest

/-- Every listed address is below `k`. -/
def Memory.below (m : Memory) (k : Nat) : Bool :=
  m.all fun c => decide (c.1 < k)

/-! ### Reading -/

/-- PCAP as a number (R8). -/
def State.capacity (s : State) : Nat := s.pcap.val

/-- PLEN as a number (R26). -/
def State.len (s : State) : Nat := s.plen.toNat

/-- FPEN: whether a fingerprint function is configured (R20). -/
def State.fpen (s : State) : Bool := s.cfg.fp.isSome

/-- The length of the tag region, 12 bytes with a fingerprint function and none without (R110, R116). -/
def State.tagLen (s : State) : Nat := if s.fpen then 12 else 0

/-- PB[a] (R10). Where no rule gives the byte's value it is a free value: the byte of that address in the present epoch
of unspecified bytes (R35, R52, R210, assumption 6). -/
def State.byteAt (s : State) (a : Nat) : Byte :=
  match Memory.get? s.pb a with
  | some b => b
  | none => Config.freeByte s.epoch a

/-- PB[a..a+n), without a check of the capacity. -/
def State.bytes (s : State) (a n : Nat) : List Byte :=
  (List.range n).map fun i => s.byteAt (a + i)

/-! ### What a part of a command answers -/

/-- The answer of a part of a command: a value, an error that ends the command at once (R10), or a stop of the model. -/
inductive Part (α : Type) where
  | ok (a : α)
  | raised (e : Err)
  | fault (f : Fault)
  | refused (r : Refusal)
  deriving DecidableEq, Repr

/-- Go on with the value of a part, or end as the part ends. -/
def Part.andThen {α β : Type} (p : Part α) (k : α → Part β) : Part β :=
  match p with
  | .ok a => k a
  | .raised e => .raised e
  | .fault f => .fault f
  | .refused r => .refused r

/-- The outcome of a command from the answer of its last part: the state it gives, or, when it raises an error, the
state the command's failure rule leaves (R10, R188, R210). -/
def Part.outcome (p : Part State) (failed : Err → State) : Result :=
  match p with
  | .ok s => .next s
  | .raised e => .next (failed e)
  | .fault f => .fault f
  | .refused r => .refused r

/-- `MemRead(a, n)`: the bytes PB[a..a+n), defined only when `a + n <= PCAP` (R10, R51). -/
def State.memRead (s : State) (a n : Nat) : Part (List Byte) :=
  if a + n ≤ s.capacity then .ok (s.bytes a n) else .fault (.payloadRange a n)

/-! ### Writing -/

/-- The state with its payload memory replaced. -/
def State.setPb (s : State) (m : Memory) : State := { s with pb := m }

/-- `MemWrite(a, n, v)`: PB[a..a+n) takes the `n`-byte sequence `v`, defined only when `a + n <= PCAP` and `|v| = n`
(R10, R51). -/
def State.memWrite (s : State) (a n : Nat) (v : List Byte) : Part State :=
  if a + n ≤ s.capacity then
    if v.length = n then .ok (s.setPb (Memory.setBytes s.pb a v)) else .fault (.writeLength n v.length)
  else .fault (.payloadRange a n)

/-- `PLEN <- n`, the low 16 bits of `n` (R26). -/
def State.setPlen (s : State) (n : Nat) : State := { s with plen := BitVec.ofNat 16 n }

/-- `ENC <- b` (R25). -/
def State.setEnc (s : State) (b : Bool) : State := { s with enc := b }

/-- The bytes of PB from address `k` on hold unspecified values (R52): they lose their values and a new epoch of
unspecified bytes begins. -/
def State.forgetFrom (s : State) (k : Nat) : State :=
  { s with pb := Memory.keepBelow s.pb k, epoch := s.epoch + 1 }

/-- What cases (b) and (c) of a failed ENCRYPT leave: every byte of PB unspecified and PLEN an unspecified value from 0
to PCAP, a free value (R210, U2, assumption 7). -/
def State.spoil (s : State) : State :=
  { s with
    pb := []
    epoch := s.epoch + 1
    plen := BitVec.ofNat 16 (Config.freeLength (s.epoch + 1) % (s.capacity + 1)) }

/-- The end of a command: `ERR <-` its result, `BUSY <- 0` (R31). With an error it is the whole of `raise` (R10, R230):
the counterpart of taking an exception, which saves nothing and goes nowhere. -/
def State.complete (s : State) (e : Err) : State := { s with err := e, busy := false }

/-! ### The random source -/

/-- `draw32()`: the value the RNG supplies, the first of the input queue, or a free value when the queue is empty
(R10, R235, U13, assumption 5). -/
def State.draw (s : State) : BitVec 32 :=
  match s.rng with
  | r :: _ => r
  | [] => Config.freeDraw s.draws

/-- The state after one draw has been taken. -/
def State.afterDraw (s : State) : State := { s with rng := s.rng.tail, draws := s.draws + 1 }

/-! ### Issue and reset -/

/-- The issue of a command: `CMDL <- c; BUSY <- 1` and nothing else (R31). -/
def State.issue (s : State) (c : Byte) : State := { s with cmdl := c, busy := true }

/-- The state after a reset released with the configuration inputs `c` (R35, R250): the values of R35, zero in the
registers R35 leaves unspecified (assumption 3), every payload byte unspecified in a new epoch. What belongs to the
environment (the RNG's inputs, the host's moves and what it has read) is not reset. DESIGN CHOICE, safe (assumption 20). -/
def State.afterReset (s : State) (c : Sampled) : State :=
  { s with
    cfg := c
    hsrc := 0#32
    hdst := 0#32
    hiproto := 0#8
    htproto := 0#8
    httl := 0#8
    hgw := false
    enc := false
    plen := 0#16
    pb := []
    err := .success
    busy := false
    cmdl := 0#8
    epoch := s.epoch + 1 }

/-! ### The environment's bookkeeping -/

/-- The state with another host program still to be run. -/
def State.withScript (s : State) (l : List HostOp) : State := { s with script := l }

/-- The state with another order of turns laid down. -/
def State.withSched (s : State) (l : List Agent) : State := { s with sched := l }

/-- The state after the host has read `r`. -/
def State.record (s : State) (r : HostRead) : State := { s with reads := r :: s.reads }

end Sys2Proof.Machine
end

