-- ==== Sys2Proof/Machine/Codec.lean ====
section
/-!
DEFINITION. The secret-body codec (spec/41_secret_body_codec.md R110 to R117): pure layout arithmetic over PB, without any
dependence on key material.
-/

namespace Sys2Proof.Machine

/-- A secret-body view: the bytes PB[0..vlen), with a tag region of 12 bytes at their end when `tp` (R110). -/
structure View where
  vlen : Nat
  tp : Bool
  deriving DecidableEq, Repr

/-- `elen = vlen - 12 * tp`, the length of the encryption region PB[0..elen) (R110, R112). -/
def View.elen (v : View) : Nat := if v.tp then v.vlen - 12 else v.vlen

/-- `NewView(vlen, tagPresent)`: fails with MalformedBody when a tag is declared and the length is below 12, or when the
encryption region would be empty (R111). -/
def newView (vlen : Nat) (tp : Bool) : Part View :=
  if tp = true ∧ vlen < 12 then .raised .malformedBody
  else if View.elen ⟨vlen, tp⟩ = 0 then .raised .malformedBody
  else .ok ⟨vlen, tp⟩

/-- `EncryptionRegion(view)`: the bytes PB[0..elen) (R112). -/
def encryptionRegion (v : View) (s : State) : Part (List Byte) := s.memRead 0 v.elen

/-- `SetRandomNonce(view, value)`: the last four bytes of the encryption region take `be32(value)`; no meaning on a region
of fewer than four bytes (R113, D31). DEDUCED, safe (assumption 15). -/
def setRandomNonce (v : View) (value : BitVec 32) (s : State) : Part State :=
  if v.elen < 4 then .refused (.nonceRegionTooShort v.elen) else s.memWrite (v.elen - 4) 4 (be32 value)

/-- `GetTag(view)`: the tag region, or MalformedBody when the view has none (R114). -/
def getTag (v : View) (s : State) : Part (List Byte) :=
  if v.tp then s.memRead (v.vlen - 12) 12 else .raised .malformedBody

/-- `SetTag(view, t)`: the tag region takes the 12 bytes `t`, or MalformedBody when the view has none (R115). -/
def setTag (v : View) (t : List Byte) (s : State) : Part State :=
  if v.tp then s.memWrite (v.vlen - 12) 12 t else .raised .malformedBody

end Sys2Proof.Machine
end

