-- ==== Sys2Proof/Machine/Flags.lean ====
section
/-!
DEFINITION. The result codes and the packed registers: STATUS, INFO, HPROTO, HFLAG (spec/10_state.md R32,
spec/60_exceptions.md R220).
-/

namespace Sys2Proof.Machine

/-- The 4-bit code of a result (R220). -/
def Err.code (e : Err) : BitVec 4 :=
  match e with
  | .success => 0#4
  | .notEncrypted => 1#4
  | .malformedPacket => 2#4
  | .malformedBody => 3#4
  | .integrityFailure => 4#4
  | .decryptFailure => 5#4
  | .encryptFailure => 6#4
  | .lengthExceedsCapacity => 7#4
  | .illegalCommand => 15#4

/-- KSEL: 0 for the AES-128 variant, 1 for the AES-256 variant (R20). -/
def Key.ksel (k : Key) : Bool :=
  match k with
  | .aes128 _ => false
  | .aes256 _ _ => true

/-- A one-bit field as a 32-bit value in bit `i`. -/
def bitField (b : Bool) (i : Nat) : BitVec 32 :=
  (if b then 1#32 else 0#32) <<< i

/-- STATUS: BUSY in bit 7, ERR in bits 3 to 0, the rest 0 (R32). -/
def State.statusWord (s : State) : BitVec 32 :=
  bitField s.busy 7 ||| (Err.code s.err).setWidth 32

/-- INFO: KSEL in bit 0, FPEN in bit 1, the rest 0 (R32). -/
def State.infoWord (s : State) : BitVec 32 :=
  bitField (Key.ksel s.cfg.key) 0 ||| bitField s.fpen 1

/-- HPROTO: HIPROTO in bits 7 to 0, HTPROTO in 15 to 8, HTTL in 23 to 16, HGW in bit 24, the rest 0 (R32). -/
def State.hprotoWord (s : State) : BitVec 32 :=
  s.hiproto.setWidth 32 ||| (s.htproto.setWidth 32 <<< 8) ||| (s.httl.setWidth 32 <<< 16) ||| bitField s.hgw 24

/-- HFLAG: ENC in bit 0, the rest 0 (R32). -/
def State.hflagWord (s : State) : BitVec 32 :=
  bitField s.enc 0

end Sys2Proof.Machine
end

