-- ==== Sys2Proof/Machine/Context.lean ====
section
/-!
DEFINITION. The IV derivation unit and the tag unit (spec/40_context_iv_tag.md R90 to R95), and the fingerprint functions
they call.
-/

namespace Sys2Proof.Machine

/-! ### The fingerprint function -/

/-- One byte taken into the hash of `FP_TEST`: exclusive or, then multiplication, modulo 2^32
(spec/95_test_vectors.md section 2). -/
def fpTestByte (h : BitVec 32) (b : Byte) : BitVec 32 :=
  (h ^^^ b.setWidth 32) * 0x01000193#32

/-- The hash number `k` of `FP_TEST` over a byte sequence (spec/95_test_vectors.md section 2). -/
def fpTestHash (k : BitVec 32) (d : List Byte) : BitVec 32 :=
  d.foldl fpTestByte (0x811C9DC5#32 + k)

/-- `FP_TEST(c, d)`, sixteen bytes (spec/95_test_vectors.md section 2). -/
def fpTestBytes (c d : List Byte) : List Byte :=
  be32 (fpTestHash 0#32 (c ++ d)) ++ be32 (fpTestHash 1#32 (c ++ d)) ++
    be32 (fpTestHash 2#32 (c ++ d)) ++ be32 (fpTestHash 3#32 (c ++ d))

/-- `FP(c, d)` of the configured function (R8, R95): the platform's own, of which nothing is known, or `FP_TEST`. -/
def fingerprint (f : Fingerprint) (c d : List Byte) : List Byte :=
  match f with
  | .keyed id => (Config.fpBytes id c d).toList
  | .fpTest => fpTestBytes c d

/-! ### The context vector -/

/-- The byte of the gateway flag: `0x01` when it is set, else `0x00` (R90, D19). -/
def gatewayByte (gw : Bool) : Byte := if gw then 0x01#8 else 0x00#8

/-- `CtxPrefix`: the 12-byte context prefix of the six header fields (R90). -/
def ctxPrefix (src dst : BitVec 32) (ip tp : Byte) (gw : Bool) (ttl : Byte) : List Byte :=
  be32 src ++ be32 dst ++ [ip, tp, gatewayByte gw, ttl]

/-- `Salt4(c12)`: the first four bytes of the fingerprint of the prefix and the empty sequence (R91, D15). -/
def salt4 (f : Fingerprint) (c12 : List Byte) : List Byte :=
  (fingerprint f c12 []).take 4

/-- `CtxVector(c12)`: the prefix, then the salt, or four zero bytes without a fingerprint function (R92, D14). -/
def ctxVector (fp : Option Fingerprint) (c12 : List Byte) : List Byte :=
  match fp with
  | some f => c12 ++ salt4 f c12
  | none => c12 ++ rep 0x00#8 4

/-! ### The tag -/

/-- `Tag12(c12, d)`: the first twelve bytes of the fingerprint of the prefix and the ciphertext (R93, D16). -/
def tag12 (f : Fingerprint) (c12 d : List Byte) : List Byte :=
  (fingerprint f c12 d).take 12

/-- `TagEq(a, b)`: whether the two are equal in all twelve bytes (R94). -/
def tagEq (a b : List Byte) : Bool := decide (a = b)

end Sys2Proof.Machine
end

