-- ==== Sys2Proof/Machine/Operands.lean ====
section
/-!
DEFINITION. The implicit operands of the two commands (spec/30_encoding.md R73): what they take from the configuration, the
header-field registers and PLEN.
-/

namespace Sys2Proof.Machine

/-- The round-key schedule W of the configured key: a pure function of KEY and KSEL, so it is computed and not stored
(R23). DEDUCED, safe (assumption 13). -/
def State.schedule (s : State) : Schedule := keyExpansion s.cfg.key

/-- The context prefix of the header-field registers as they are (R90). -/
def State.c12 (s : State) : List Byte :=
  ctxPrefix s.hsrc s.hdst s.hiproto s.htproto s.hgw s.httl

/-- The context vector of the state, as the IV of the block mode (R92, R160). -/
def State.iv (s : State) : Block := toBlock (ctxVector s.cfg.fp s.c12)

/-- `g`: the length ENCRYPT grows the payload to, by the nonce and, with a fingerprint function, the tag (R200, R203). -/
def State.grown (s : State) : Nat := s.len + 4 + s.tagLen

/-- `M`: the length of the ciphertext that ENCRYPT makes of the payload and the nonce (R200, R204). -/
def State.cipherLen (s : State) : Nat := 16 * ((s.len + 4) / 16) + 16

/-- `elen`: the length of the encryption region of the payload that DECRYPT finds (R180). -/
def State.regionLen (s : State) : Nat := s.len - s.tagLen

end Sys2Proof.Machine
end

