-- ==== Sys2Proof/Machine/Decrypt.lean ====
section
/-!
DEFINITION. The DECRYPT command (spec/44_decrypt.md R180 to R189).
-/

namespace Sys2Proof.Machine

/-- Step 4: with a fingerprint function, the stored tag must equal the tag of the ciphertext, else IntegrityFailure;
without one there is no check (R184). -/
def checkTag (s : State) (v : View) (ct : List Byte) : Part Unit :=
  match s.cfg.fp with
  | none => .ok ()
  | some f =>
    (getTag v s).andThen fun stored =>
      if tagEq (tag12 f s.c12 ct) stored then .ok () else .raised .integrityFailure

/-- Steps 5 and 6 as far as the plaintext: DecryptFailure for bad padding, a length that is not a positive multiple of
16, or a plaintext too short to hold the nonce; else the plaintext without its last four bytes (R185, R186). -/
def openBody (s : State) (ct : List Byte) : Part (List Byte) :=
  match cbcDecUnpad s.schedule s.iv ct with
  | none => .raised .decryptFailure
  | some r => if r.length < 4 then .raised .decryptFailure else .ok (r.take (r.length - 4))

/-- Step 6: the payload is stored, `PLEN <-` its length, `ENC <- 0`, success; the bytes beyond it are unspecified
(R186, R187). -/
def storePayload (s : State) (m : List Byte) : Part State :=
  (s.memWrite 0 m.length m).andThen fun s1 =>
    .ok ((((s1.setPlen m.length).forgetFrom m.length).setEnc false).complete .success)

/-- The steps of DECRYPT in their order; the tests of ENC and of the length come before any other work (R180, R229). -/
def decryptSteps (s : State) : Part State :=
  if s.enc = false then .raised .notEncrypted
  else if s.len < 16 then .raised .malformedPacket
  else
    (newView s.len s.fpen).andThen fun v =>
      (encryptionRegion v s).andThen fun ct =>
        (checkTag s v ct).andThen fun _ =>
          (openBody s ct).andThen fun m =>
            storePayload s m

/-- DECRYPT (R180). After an error only ERR and BUSY change, DecryptFailure included (R188, C8). DEDUCED
(assumption 19). -/
def execDecrypt (s : State) : Result :=
  (decryptSteps s).outcome fun e => s.complete e

end Sys2Proof.Machine
end

