-- ==== Sys2Proof/Machine/Encrypt.lean ====
section
/-!
DEFINITION. The ENCRYPT command (spec/45_encrypt.md R200 to R211).
-/

namespace Sys2Proof.Machine

/-- Step 6 with the final length `n`: `PLEN <- n`, `ENC <- 1`, success; the bytes beyond it are unspecified
(R206, R207, R211). -/
def finishEncrypt (s : State) (n : Nat) : State :=
  (((s.setPlen n).forgetFrom n).setEnc true).complete .success

/-- Step 5 over a ciphertext of length `m` that stands in PB[0..m): with a fingerprint function the tag of the ciphertext
is stored behind it, if there is room (R206, R205 case c). -/
def storeTag (s : State) (m : Nat) : Part State :=
  match s.cfg.fp with
  | none => .ok (finishEncrypt s m)
  | some f =>
    if s.capacity < m + 12 then .raised .lengthExceedsCapacity
    else
      (s.memRead 0 m).andThen fun ct =>
        (newView (m + 12) true).andThen fun v =>
          (setTag v (tag12 f s.c12 ct) s).andThen fun s1 =>
            .ok (finishEncrypt s1 (m + 12))

/-- Steps 3 to 6, after the growth of step 2 has been found to fit (R200, R203, R204, R205 cases b and c). -/
def encryptSteps (s : State) : Part State :=
  (newView s.grown s.fpen).andThen fun view1 =>
    (setRandomNonce view1 s.draw s.afterDraw).andThen fun s1 =>
      if s.capacity < s.cipherLen then .raised .encryptFailure
      else
        (s1.memRead 0 (s.len + 4)).andThen fun m =>
          (s1.memWrite 0 s.cipherLen (cbcEncPad s.schedule s.iv m)).andThen fun s2 =>
            storeTag s2 s.cipherLen

/-- ENCRYPT (R200). Every ENCRYPT takes one draw (R31, R235). When the grown length does not fit nothing else changes but
ERR and BUSY; a later error leaves PB and PLEN unspecified and ENC as it was (R205, R210). DEDUCED, safe: the growth failure
takes its draw although R200 raises before `draw32()` (assumption 5). -/
def execEncrypt (s : State) : Result :=
  if s.capacity < s.grown then .next (s.afterDraw.complete .lengthExceedsCapacity)
  else (encryptSteps s).outcome fun e => s.afterDraw.spoil.complete e

end Sys2Proof.Machine
end

