-- ==== Sys2Proof/Machine/HostPort.lean ====
section
/-!
DEFINITION. The host's side: the register space, the moves of the host on it and on the payload space
(spec/10_state.md R31, R32, R34; spec/20_memory.md R50, R51, R56, R57; spec/70_reset_and_hazards.md R252), reset, and the
lines and pseudo-instructions of host programs (spec/30_encoding.md R75, R76).
-/

namespace Sys2Proof.Machine

/-- The registers of R32. -/
inductive Reg where
  | cmd
  | status
  | info
  | plen
  | hsrc
  | hdst
  | hproto
  | hflag
  deriving DecidableEq, Repr

/-- The register with a number; numbers 8 and above do not exist (R32). -/
def regOfNumber (no : Nat) : Option Reg :=
  match no with
  | 0 => some .cmd
  | 1 => some .status
  | 2 => some .info
  | 3 => some .plen
  | 4 => some .hsrc
  | 5 => some .hdst
  | 6 => some .hproto
  | 7 => some .hflag
  | _ => none

/-- The number of a register (R32). -/
def regNumber (r : Reg) : Nat :=
  match r with
  | .cmd => 0
  | .status => 1
  | .info => 2
  | .plen => 3
  | .hsrc => 4
  | .hdst => 5
  | .hproto => 6
  | .hflag => 7

/-- What a host read of a register returns, bits without a name as 0; CMD is write-only (R32). -/
def readReg (r : Reg) (s : State) : Option (BitVec 32) :=
  match r with
  | .cmd => none
  | .status => some s.statusWord
  | .info => some s.infoWord
  | .plen => some (s.plen.setWidth 32)
  | .hsrc => some s.hsrc
  | .hdst => some s.hdst
  | .hproto => some s.hprotoWord
  | .hflag => some s.hflagWord

/-- The state with HPROTO written: its four fields from their bits, bits 31 to 25 ignored (R32). -/
def State.setHproto (s : State) (v : BitVec 32) : State :=
  { s with
    hiproto := v.extractLsb' 0 8
    htproto := v.extractLsb' 8 8
    httl := v.extractLsb' 16 8
    hgw := v.getLsbD 24 }

/-- The state with HSRC written (R24). -/
def State.setHsrc (s : State) (v : BitVec 32) : State := { s with hsrc := v }

/-- The state with HDST written (R24). -/
def State.setHdst (s : State) (v : BitVec 32) : State := { s with hdst := v }

/-- A host write of a register while BUSY = 0: a write of CMD issues a command (R31), a write of another writable register
changes that register and nothing else (R57), a value above PCAP for PLEN and a read-only register are refused
(R26, R32). DEDUCED, safe: the value for PLEN is compared whole (assumption 11). -/
def writeReg (r : Reg) (v : BitVec 32) (s : State) : Result :=
  match r with
  | .cmd => .next (s.issue (v.extractLsb' 0 8))
  | .status => .refused (.writeOfReadOnly 1)
  | .info => .refused (.writeOfReadOnly 2)
  | .plen => if s.capacity < v.toNat then .refused (.lengthAboveCapacity v.toNat) else .next (s.setPlen v.toNat)
  | .hsrc => .next (s.setHsrc v)
  | .hdst => .next (s.setHdst v)
  | .hproto => .next (s.setHproto v)
  | .hflag => .next (s.setEnc (v.getLsbD 0))

/-- A host write of one payload byte while BUSY = 0 (R27, R51, R57). -/
def writeByte (a : Nat) (b : Byte) (s : State) : Result :=
  if a < s.capacity then .next (s.setPb (Memory.set s.pb a b)) else .refused (.payloadAddress a)

/-- A host read of one payload byte while BUSY = 0; the host keeps what it read (R27, R51, R57). -/
def readByte (a : Nat) (s : State) : Result :=
  if a < s.capacity then .next (s.record (.byte a (s.byteAt a))) else .refused (.payloadAddress a)

/-- A host write by register number. -/
def hostWrite (no : Nat) (v : BitVec 32) (s : State) : Result :=
  match regOfNumber no with
  | none => .refused (.noSuchRegister no)
  | some r => if s.busy then .refused .hostAccessWhileBusy else writeReg r v s

/-- A host read by register number; while BUSY = 1 only STATUS may be read (R29, R34, R252). -/
def hostRead (no : Nat) (s : State) : Result :=
  match regOfNumber no with
  | none => .refused (.noSuchRegister no)
  | some r =>
    if s.busy = true ∧ r ≠ .status then .refused .hostAccessWhileBusy
    else
      match readReg r s with
      | none => .refused (.readOfWriteOnly no)
      | some v => .next (s.record (.reg no v))

/-- One poll of `WAIT`: STATUS is read, and the line is taken when BUSY was 0 (R75). -/
def hostWait (rest : List HostOp) (s : State) : Result :=
  if s.busy then .next (s.record (.reg 1 s.statusWord))
  else .next ((s.withScript rest).record (.reg 1 s.statusWord))

/-- One move of the host, the rest of its program being `rest`. While BUSY = 1 a read of STATUS and reset are the only
moves (R252, R35); every other is refused. DEDUCED, unsafe towards a host that breaks its duties (assumption 14). -/
def hostMove (op : HostOp) (rest : List HostOp) (s : State) : Result :=
  match op with
  | .wr no v => hostWrite no v (s.withScript rest)
  | .rd no => hostRead no (s.withScript rest)
  | .wrb a b => if s.busy then .refused .hostAccessWhileBusy else writeByte a b (s.withScript rest)
  | .rdb a => if s.busy then .refused .hostAccessWhileBusy else readByte a (s.withScript rest)
  | .wait => hostWait rest s
  | .reset c => .next ((s.withScript rest).afterReset c)

/-- The host's step: the next move of its program; with none left it does nothing (R261). -/
def hostStep (s : State) : Result :=
  match s.script with
  | [] => .next s
  | op :: rest => hostMove op rest s

/-! ### Host programs -/

/-- `WRB addr, bytes`: one byte write per byte (R75). -/
def lineWrb (a : Nat) (v : List Byte) : List HostOp :=
  match v with
  | [] => []
  | b :: rest => .wrb a b :: lineWrb (a + 1) rest

/-- `RDB addr, n`: one byte read per byte (R75). -/
def lineRdb (a n : Nat) : List HostOp := (List.range n).map fun i => .rdb (a + i)

/-- The pseudo-instruction `ENCRYPT` (R76). -/
def lineEncrypt : List HostOp := [.wr 0 0x01#32, .wait]

/-- The pseudo-instruction `DECRYPT` (R76). -/
def lineDecrypt : List HostOp := [.wr 0 0x02#32, .wait]

/-- The pseudo-instruction `HDR src, dst, ip, tp, gw, ttl` (R76). -/
def lineHdr (src dst : BitVec 32) (ip tp gw ttl : Nat) : List HostOp :=
  [.wr 4 src, .wr 5 dst, .wr 6 (BitVec.ofNat 32 (ip + 256 * tp + 65536 * ttl + 16777216 * gw))]

/-- The pseudo-instruction `LOAD bytes` (R76). -/
def lineLoad (v : List Byte) : List HostOp := lineWrb 0 v ++ [.wr 3 (BitVec.ofNat 32 v.length)]

/-- The number of an address in dotted form (R76). -/
def dotted (a b c d : Nat) : BitVec 32 := BitVec.ofNat 32 (a * 2 ^ 24 + b * 2 ^ 16 + c * 2 ^ 8 + d)

end Sys2Proof.Machine
end

