-- ==== Sys2Proof/Machine/Turn.lean ====
section
/-!
DEFINITION. One step of the whole machine: the engine's completion step (spec/10_state.md R31, spec/30_encoding.md R72), and
whose turn it is.
-/

namespace Sys2Proof.Machine

/-- The completion of a reserved command code: `ERR <- 15`, BUSY cleared, nothing else (R72, R228). DESIGN CHOICE:
of the two treatments R72 allows, this and not a refusal (assumption 12). -/
def completeReserved (s : State) : Result := .next (s.complete .illegalCommand)

/-- The completion step: the whole command that CMDL selects (R31, R71, R72). -/
def completion (s : State) : Result :=
  match decode s.cmdl with
  | .ok i => exec i s
  | .error _ => completeReserved s

/-- The engine's step: the completion step, enabled only when BUSY = 1; with nothing in flight the engine waits
(R31, R250). -/
def engineStep (s : State) : Result :=
  if s.busy then completion s else .next s

/-- The step of the agent whose turn it is. The turn is the first of those laid down; where none is, the engine moves when a
command is in flight and the host otherwise (R31, R260). DESIGN CHOICE, safe
(assumption 8). -/
def takeTurn (s : State) : Result :=
  match s.sched with
  | [] => if s.busy then engineStep s else hostStep s
  | .engine :: rest => engineStep (s.withSched rest)
  | .host :: rest => hostStep (s.withSched rest)

/-- The state with the command word of `nbits` bits `w` in flight and no turn laid down before the engine's: what the
host's write of `w` to CMD leaves (R31). -/
def placeCommand (s : State) (nbits w : Nat) : State :=
  (s.issue (BitVec.ofNat 8 (w % 2 ^ nbits))).withSched []

end Sys2Proof.Machine
end

