-- ==== Sys2Proof/Machine/Step.lean ====
section
/-!
DEFINITION. The step of the machine, and the placing of a command for the host's questions. Both call Machine/Turn.lean.
-/

namespace Sys2Proof.Machine

/-- One step of the machine (spec/10_state.md R31). -/
def step (s : State) : Host.Outcome State Fault Refusal := takeTurn s

/-- The state whose next step runs the command word `w` of `nbits` bits. A command is fetched from no memory: it is the
byte written to CMD, so it is placed in CMDL with BUSY set (R30, R31, R62, assumption 10). -/
def State.withFetchWord (s : State) (nbits w : Nat) : State := placeCommand s nbits w

end Sys2Proof.Machine
end

