-- ==== Sys2Proof/Safety.lean ====
section
/-!
DEFINITION. What the claims call a good state (spec/10_state.md R36, spec/20_memory.md R51, R52), the conditions on a state
that the commands' rules name, and what it means that two states present the same context (spec/70_reset_and_hazards.md
R255), and the premises of the properties of spec/00_scope.md R12.
-/

namespace Sys2Proof.Machine

/-- The invariant of R36 and of the payload memory: PLEN is at most PCAP, the memory is in canonical form and lists no
address of PCAP or above. That ERR is one of 0 to 7 or 15 holds by its type. -/
def State.Inv (s : State) : Prop :=
  s.len ≤ s.capacity ∧ Memory.wf s.pb = true ∧ Memory.below s.pb s.capacity = true

/-- The capacity condition under which ENCRYPT succeeds, and so the premise of the round trip (R201, R253, R12). -/
def State.Fits (s : State) : Prop :=
  roundUp16 (s.len + 5) + s.tagLen ≤ s.capacity

/-- Two states agree in everything that no command writes: the capacity, the configuration, the header-field registers,
the command latch, the host's program, the turns laid down and what the host has read (R34). -/
def SameOutside (s t : State) : Prop :=
  t.pcap = s.pcap ∧ t.cfg = s.cfg ∧ t.hsrc = s.hsrc ∧ t.hdst = s.hdst ∧ t.hiproto = s.hiproto ∧
    t.htproto = s.htproto ∧ t.httl = s.httl ∧ t.hgw = s.hgw ∧ t.cmdl = s.cmdl ∧ t.sched = s.sched ∧
    t.script = s.script ∧ t.reads = s.reads

/-- Two states have the same configuration and the same six header fields: what both ends of a tunnel must present
(R255). -/
def SameContext (s t : State) : Prop :=
  t.cfg = s.cfg ∧ t.hsrc = s.hsrc ∧ t.hdst = s.hdst ∧ t.hiproto = s.hiproto ∧ t.htproto = s.htproto ∧
    t.httl = s.httl ∧ t.hgw = s.hgw

/-- The ciphertext that ENCRYPT makes of the payload and the draw (R204, R208). -/
def State.sealed (s : State) : List Byte := cbcEncPad s.schedule s.iv (s.bytes 0 s.len ++ be32 s.draw)

/-- The ciphertext that DECRYPT finds: the encryption region PB[0..elen) (R180). -/
def State.region (s : State) : List Byte := s.bytes 0 s.regionLen

/-- The tag that DECRYPT finds stored: PB[elen..elen+12) (R184). -/
def State.storedTag (s : State) : List Byte := s.bytes s.regionLen 12

/-- The payload passes step 4 of DECRYPT: there is no fingerprint function, or the stored tag is the tag of the region
(R184). -/
def State.TagMatches (s : State) : Prop :=
  ∀ f, s.cfg.fp = some f → s.storedTag = tag12 f s.c12 s.region

/-- What R12 lets a claim of tamper detection suppose of the fingerprint function `f`, as a property of the function: its first
twelve bytes are equal on the two inputs only if the inputs are (R12, R96). -/
def Fingerprint.TellsApart (f : Fingerprint) (c d c' d' : List Byte) : Prop :=
  tag12 f c d = tag12 f c' d' → c = c' ∧ d = d'

/-- Whose turn it is (assumption 8). -/
def State.turn (s : State) : Agent :=
  match s.sched with
  | a :: _ => a
  | [] => if s.busy then .engine else .host

/-- The state the agent whose turn it is starts from: the turn laid down is used up. -/
def State.atTurn (s : State) : State := s.withSched s.sched.tail

end Sys2Proof.Machine
end

