-- ==== Sys2Proof/Certificates/Slice0/Obligations.lean ====
section
/-!
DEFINITION. The statements for the provers, one `def Obligations.<Name> : Prop` each. A statement quantifies over all states, so
over all keys of either variant, all capacities, all fingerprint functions and all draws. `exec i` is the completion
step of the command `i`; `step` is the step of the whole machine.
-/

open Sys2Proof Sys2Proof.Machine

/-! ### Encoding and the step -/

/-- R71: a decoder compares the whole byte; two codes are assigned and every other is reserved. -/
def Obligations.CommandCodesAreComparedWhole : Prop :=
  ∀ w : Byte,
    decode w =
      if w = 0x01#8 then .ok .encrypt else if w = 0x02#8 then .ok .decrypt else .error (.reservedCode w)

/-- R70, R71: every command is well formed, its word decodes to it, and no other word does. -/
def Obligations.EncodedCommandsDecodeBack : Prop :=
  ∀ (i : Instr) (w : Byte), i.wf = true ∧ (decode w = .ok i ↔ w = encode i) ∧ (commandWordWf w = true ↔ ∃ j, w = encode j)

/-- R31, R71: when it is the engine's turn and a command is in flight, the step is the command that CMDL selects, run
on the state with the turn used up. Turns and the host's program are the model's own (assumptions 8 and 9). -/
def Obligations.StepRunsTheDecodedCommand : Prop :=
  ∀ (s : State) (i : Instr), s.turn = .engine → s.busy = true → decode s.cmdl = .ok i → step s = exec i s.atTurn

/-- R72: a write of a reserved code to CMD issues a command like any other; its completion sets ERR to IllegalCommand,
whose code is 15, clears BUSY, takes no draw, and changes nothing else. R72 lets a model refuse a reserved code
instead: that it completes is the model's choice (assumption 12). So is who moves when (assumption 8) and the host's
program (assumption 9). -/
def Obligations.ReservedCodeCompletesAsIllegalCommand : Prop :=
  (∀ (s : State) (v : BitVec 32) (rest : List HostOp),
    s.turn = .host → s.busy = false → s.script = .wr 0 v :: rest →
    v.extractLsb' 0 8 ≠ 0x01#8 → v.extractLsb' 0 8 ≠ 0x02#8 →
    step s = .next { s.atTurn with script := rest, cmdl := v.extractLsb' 0 8, busy := true }) ∧
  (∀ s : State, s.turn = .engine → s.busy = true → s.cmdl ≠ 0x01#8 → s.cmdl ≠ 0x02#8 →
    step s = .next { s.atTurn with busy := false, err := .illegalCommand }) ∧
  Err.code .illegalCommand = 15#4

/-! ### The context vector and the tag -/

/-- R90, R96: the layout of the context prefix: the source address first octet first, the destination address likewise, the
inner and the transport protocol, the gateway flag as the byte 00 or 01, the TTL; the prefix of a state is made so of its
registers, and tells any two headers apart. -/
def Obligations.ContextPrefixTellsHeadersApart : Prop :=
  (∀ s : State,
    s.c12 =
      [s.hsrc.extractLsb' 24 8, s.hsrc.extractLsb' 16 8, s.hsrc.extractLsb' 8 8, s.hsrc.extractLsb' 0 8,
        s.hdst.extractLsb' 24 8, s.hdst.extractLsb' 16 8, s.hdst.extractLsb' 8 8, s.hdst.extractLsb' 0 8,
        s.hiproto, s.htproto, if s.hgw then 0x01#8 else 0x00#8, s.httl]) ∧
  (∀ (src dst : BitVec 32) (ip tp ttl : Byte) (gw : Bool),
    ctxPrefix src dst ip tp gw ttl =
      [src.extractLsb' 24 8, src.extractLsb' 16 8, src.extractLsb' 8 8, src.extractLsb' 0 8,
        dst.extractLsb' 24 8, dst.extractLsb' 16 8, dst.extractLsb' 8 8, dst.extractLsb' 0 8,
        ip, tp, if gw then 0x01#8 else 0x00#8, ttl]) ∧
  ∀ (src src' dst dst' : BitVec 32) (ip ip' tp tp' ttl ttl' : Byte) (gw gw' : Bool),
    ctxPrefix src dst ip tp gw ttl = ctxPrefix src' dst' ip' tp' gw' ttl' ↔
      src = src' ∧ dst = dst' ∧ ip = ip' ∧ tp = tp' ∧ gw = gw' ∧ ttl = ttl'

/-- R91, R92: the context vector has 16 bytes: the 12-byte prefix, then the first four bytes of the fingerprint of the
prefix and the empty sequence, or four zero bytes without a fingerprint function; it is the IV of the block mode. -/
def Obligations.ContextVectorIsPrefixAndSalt : Prop :=
  ∀ s : State,
    (blockBytes s.iv).take 12 = s.c12 ∧ (blockBytes s.iv).length = 16 ∧
      (s.cfg.fp = none → (blockBytes s.iv).drop 12 = rep 0x00#8 4) ∧
      (∀ f, s.cfg.fp = some f → (blockBytes s.iv).drop 12 = (fingerprint f s.c12 []).take 4)

/-- R93, R94: the tag is the first twelve bytes of the fingerprint, and two tags are equal for TagEq exactly when they agree
in each of the twelve bytes. -/
def Obligations.TagIsTwelveBytesComparedWhole : Prop :=
  (∀ (f : Fingerprint) (c d : List Byte),
    (tag12 f c d).length = 12 ∧ fingerprint f c d = tag12 f c d ++ (fingerprint f c d).drop 12) ∧
  (∀ a b : List Byte, a.length = 12 → b.length = 12 →
    (tagEq a b = true ↔ ∀ i, i < 12 → a.getD i 0#8 = b.getD i 0#8))

/-! ### The secret-body codec -/

/-- R111: NewView fails with MalformedBody when a tag is declared and the length is below 12 or when the encryption region
would be empty, and answers the view otherwise. -/
def Obligations.NewViewFailsOnShortOrEmptyBodies : Prop :=
  ∀ (n : Nat) (tp : Bool),
    ((if tp then 12 else 0) < n → newView n tp = .ok ⟨n, tp⟩) ∧
      (n ≤ (if tp then 12 else 0) → newView n tp = .raised .malformedBody)

/-- R113: SetRandomNonce stores the value, most significant byte first, in the last four bytes of the encryption region and writes nothing else; on a
region of fewer than four bytes it is refused. -/
def Obligations.NonceGoesToTheEndOfTheRegion : Prop :=
  ∀ (v : View) (x : BitVec 32) (s : State),
    (v.elen < 4 → setRandomNonce v x s = .refused (.nonceRegionTooShort v.elen)) ∧
    (4 ≤ v.elen → v.vlen ≤ s.capacity →
      ∃ t, setRandomNonce v x s = .ok t ∧ t = { s with pb := t.pb } ∧
        t.bytes (v.elen - 4) 4 =
          [x.extractLsb' 24 8, x.extractLsb' 16 8, x.extractLsb' 8 8, x.extractLsb' 0 8] ∧
        ∀ a, a < v.elen - 4 ∨ v.elen ≤ a → t.byteAt a = s.byteAt a)

/-- R114, R115: on a view with a tag, GetTag reads the last twelve bytes of the view and SetTag stores them and nothing
else; on a view without a tag both fail with MalformedBody. -/
def Obligations.TagRegionIsTheEndOfTheView : Prop :=
  ∀ (n : Nat) (s : State) (tag : List Byte),
    getTag ⟨n, false⟩ s = .raised .malformedBody ∧ setTag ⟨n, false⟩ tag s = .raised .malformedBody ∧
    (12 ≤ n → n ≤ s.capacity → tag.length = 12 →
      getTag ⟨n, true⟩ s = .ok (s.bytes (n - 12) 12) ∧
      ∃ t, setTag ⟨n, true⟩ tag s = .ok t ∧ t = { s with pb := t.pb } ∧ getTag ⟨n, true⟩ t = .ok tag ∧
        ∀ a, a < n - 12 ∨ n ≤ a → t.byteAt a = s.byteAt a)

/-! ### The block cipher -/

/-- R132: `xtime` and `gmul` as the rule gives them; the multiplication is commutative and associative, distributes over the
exclusive or, has the unit 1, is given for the cipher's six multipliers by xtime, and every nonzero byte has exactly one
inverse, the inverse of zero being taken as zero. -/
def Obligations.GmulIsFieldMultiplication : Prop :=
  (∀ a : Byte, xtime a = if a.getLsbD 7 then (a <<< 1) ^^^ 0x1b#8 else a <<< 1) ∧
  (∀ a b : Byte,
    gmul a b = (((List.range 8).filter fun i => b.getLsbD i).map fun i => xtime^[i] a).foldl (· ^^^ ·) 0x00#8) ∧
  (∀ a b : Byte, gmul a b = gmul b a) ∧
  (∀ a b c : Byte, gmul (gmul a b) c = gmul a (gmul b c)) ∧
  (∀ a b c : Byte, gmul a (b ^^^ c) = gmul a b ^^^ gmul a c) ∧
  (∀ a : Byte, gmul a 0x01#8 = a ∧ gmul a 0x00#8 = 0x00#8) ∧
  (∀ a : Byte,
    gmul a 0x02#8 = xtime a ∧ gmul a 0x03#8 = xtime a ^^^ a ∧
    gmul a 0x09#8 = xtime (xtime (xtime a)) ^^^ a ∧
    gmul a 0x0b#8 = xtime (xtime (xtime a)) ^^^ xtime a ^^^ a ∧
    gmul a 0x0d#8 = xtime (xtime (xtime a)) ^^^ xtime (xtime a) ^^^ a ∧
    gmul a 0x0e#8 = xtime (xtime (xtime a)) ^^^ xtime (xtime a) ^^^ xtime a) ∧
  (∃ inv : Byte → Byte,
    inv 0x00#8 = 0x00#8 ∧ ∀ a, a ≠ 0x00#8 → gmul a (inv a) = 0x01#8 ∧ ∀ c, gmul a c = 0x01#8 → c = inv a) ∧
  xtime 0x57#8 = 0xae#8 ∧ gmul 0x57#8 0x13#8 = 0xfe#8 ∧ gmul 0x57#8 0x83#8 = 0xc1#8 ∧ gmul 0x53#8 0xca#8 = 0x01#8

/-- R133: the S-box table is the affine map of the inverse, `aff` being the sum of the five rotations and 0x63; it is a
permutation with the other table as its inverse, and has no fixed point. -/
def Obligations.SboxIsAffineMapOfInverse : Prop :=
  (∀ b : Byte,
    aff b = b ^^^ b.rotateLeft 1 ^^^ b.rotateLeft 2 ^^^ b.rotateLeft 3 ^^^ b.rotateLeft 4 ^^^ 0x63#8) ∧
  (∀ a b : Byte, gmul a b = 0x01#8 ∨ (a = 0x00#8 ∧ b = 0x00#8) → sbox a = aff b) ∧
  (∀ a : Byte, invSbox (sbox a) = a ∧ sbox (invSbox a) = a ∧ sbox a ≠ a) ∧
  sbox 0x00#8 = 0x63#8 ∧ sbox 0x53#8 = 0xed#8 ∧ invSbox 0x63#8 = 0x00#8

/-- R137, R144: the byte at row `r`, column `c` after ShiftRows is the byte at row `r`, column `(c + r) mod 4` before, and
after InvShiftRows that at column `(c - r) mod 4`; InvShiftRows undoes ShiftRows. -/
def Obligations.ShiftRowsRotatesEachRow : Prop :=
  ∀ s : Block,
    (∀ r c : Nat, r < 4 → c < 4 →
      (blockBytes (shiftRows s)).getD (r + 4 * c) 0#8 = (blockBytes s).getD (r + 4 * ((c + r) % 4)) 0#8 ∧
        (blockBytes (invShiftRows s)).getD (r + 4 * c) 0#8 = (blockBytes s).getD (r + 4 * ((c + 4 - r) % 4)) 0#8) ∧
    invShiftRows (shiftRows s) = s

/-- R136, R138, R143, R144, R145: SubBytes and InvSubBytes take each byte through their table; MixColumns and InvMixColumns
take each column, of bytes `a0` to `a3`, through the matrix of their rule; and each inverse round transformation undoes its
transformation and is undone by it. -/
def Obligations.InverseRoundTransformationsUndo : Prop :=
  ∀ s : Block,
    (blockBytes (subBytes s) = (blockBytes s).map sbox ∧ blockBytes (invSubBytes s) = (blockBytes s).map invSbox) ∧
    (∀ (c : Nat) (a0 a1 a2 a3 : Byte), c < 4 → ((blockBytes s).drop (4 * c)).take 4 = [a0, a1, a2, a3] →
      ((blockBytes (mixColumns s)).drop (4 * c)).take 4 =
        [gmul a0 0x02#8 ^^^ gmul a1 0x03#8 ^^^ a2 ^^^ a3, a0 ^^^ gmul a1 0x02#8 ^^^ gmul a2 0x03#8 ^^^ a3,
          a0 ^^^ a1 ^^^ gmul a2 0x02#8 ^^^ gmul a3 0x03#8, gmul a0 0x03#8 ^^^ a1 ^^^ a2 ^^^ gmul a3 0x02#8] ∧
      ((blockBytes (invMixColumns s)).drop (4 * c)).take 4 =
        [gmul a0 0x0e#8 ^^^ gmul a1 0x0b#8 ^^^ gmul a2 0x0d#8 ^^^ gmul a3 0x09#8,
          gmul a0 0x09#8 ^^^ gmul a1 0x0e#8 ^^^ gmul a2 0x0b#8 ^^^ gmul a3 0x0d#8,
          gmul a0 0x0d#8 ^^^ gmul a1 0x09#8 ^^^ gmul a2 0x0e#8 ^^^ gmul a3 0x0b#8,
          gmul a0 0x0b#8 ^^^ gmul a1 0x0d#8 ^^^ gmul a2 0x09#8 ^^^ gmul a3 0x0e#8]) ∧
    invSubBytes (subBytes s) = s ∧ subBytes (invSubBytes s) = s ∧
    invShiftRows (shiftRows s) = s ∧ shiftRows (invShiftRows s) = s ∧
    invMixColumns (mixColumns s) = s ∧ mixColumns (invMixColumns s) = s

/-- R140, R141: the schedule has 44 words for AES-128 and 60 for AES-256; the first Nk, 4 or 8, are the key's bytes four by
four, and each later word is the sum of the word Nk before it and a term of the word before it; RotWord, SubWord, the sum
of words and the round constants are those of the rule. -/
def Obligations.KeyScheduleFollowsItsRecurrence : Prop :=
  (∀ k : Block,
    (keyExpansion (.aes128 k)).words.length = 44 ∧ (keyExpansion (.aes128 k)).nr = 10 ∧ Key.nk (.aes128 k) = 4 ∧
      ∀ i, i < 4 → wordBytes ((keyExpansion (.aes128 k)).words.getD i zeroWord) = ((blockBytes k).drop (4 * i)).take 4) ∧
  (∀ lo hi : Block,
    (keyExpansion (.aes256 lo hi)).words.length = 60 ∧ (keyExpansion (.aes256 lo hi)).nr = 14 ∧
      Key.nk (.aes256 lo hi) = 8 ∧
      ∀ i, i < 8 → wordBytes ((keyExpansion (.aes256 lo hi)).words.getD i zeroWord) =
        ((blockBytes lo ++ blockBytes hi).drop (4 * i)).take 4) ∧
  (∀ w v : Word,
    rotWord w = ⟨w.b1, w.b2, w.b3, w.b0⟩ ∧ subWord w = ⟨sbox w.b0, sbox w.b1, sbox w.b2, sbox w.b3⟩ ∧
      wordXor w v = ⟨w.b0 ^^^ v.b0, w.b1 ^^^ v.b1, w.b2 ^^^ v.b2, w.b3 ^^^ v.b3⟩) ∧
  (rcon 1 = ⟨0x01#8, 0#8, 0#8, 0#8⟩ ∧ ∀ i, 1 ≤ i → rcon (i + 1) = ⟨xtime (rcon i).b0, 0#8, 0#8, 0#8⟩) ∧
  ∀ (k : Key) (i : Nat), Key.nk k ≤ i → i < 4 * ((keyExpansion k).nr + 1) →
    (keyExpansion k).words.getD i zeroWord =
      wordXor ((keyExpansion k).words.getD (i - Key.nk k) zeroWord)
        (if i % Key.nk k = 0 then
          wordXor (subWord (rotWord ((keyExpansion k).words.getD (i - 1) zeroWord))) (rcon (i / Key.nk k))
        else if 6 < Key.nk k ∧ i % Key.nk k = 4 then subWord ((keyExpansion k).words.getD (i - 1) zeroWord)
        else (keyExpansion k).words.getD (i - 1) zeroWord)

/-- R139, R142, R146: AddRoundKey adds the four words of the round key byte by byte; Cipher adds round key 0, runs the rounds
1 to Nr - 1 and then a last round without MixColumns; InvCipher runs its rounds from Nr - 1 down to 1 and ends with round
key 0; and the two are inverse permutations, for every schedule. -/
def Obligations.InvCipherInvertsCipher : Prop :=
  ∀ (w : Schedule) (x : Block),
    (∀ j, blockBytes (addRoundKey x w j) =
      List.zipWith (· ^^^ ·) (blockBytes x)
        (wordBytes (w.words.getD (4 * j) zeroWord) ++ wordBytes (w.words.getD (4 * j + 1) zeroWord) ++
          wordBytes (w.words.getD (4 * j + 2) zeroWord) ++ wordBytes (w.words.getD (4 * j + 3) zeroWord))) ∧
    cipher w x =
      addRoundKey (shiftRows (subBytes
        ((List.range' 1 (w.nr - 1)).foldl (fun s j => addRoundKey (mixColumns (shiftRows (subBytes s))) w j)
          (addRoundKey x w 0)))) w w.nr ∧
    invCipher w x =
      addRoundKey (invSubBytes (invShiftRows
        ((List.range' 1 (w.nr - 1)).reverse.foldl
          (fun s j => invMixColumns (addRoundKey (invSubBytes (invShiftRows s)) w j)) (addRoundKey x w w.nr)))) w 0 ∧
    invCipher w (cipher w x) = x ∧ cipher w (invCipher w x) = x

/-! ### The block mode and the padding -/

/-- R161, R165: padding adds `p` bytes of value `p`, `p` from 1 to 16, up to a multiple of 16, also when the length already
is one; Unpad gives back what was padded. -/
def Obligations.PaddingIsRemovedByUnpad : Prop :=
  ∀ m : List Byte,
    unpad (pad m) = some m ∧ (pad m).length = roundUp16 (m.length + 1) ∧
      ∃ p, 1 ≤ p ∧ p ≤ 16 ∧ (m.length + p) % 16 = 0 ∧ pad m = m ++ rep (BitVec.ofNat 8 p) p

/-- R165: Unpad accepts exactly the sequences that end in `p` bytes of value `p` for a `p` from 1 to 16, and gives the rest;
it undoes Pad. -/
def Obligations.UnpadAcceptsExactlyValidPadding : Prop :=
  (∀ x r : List Byte, x.length ≠ 0 → x.length % 16 = 0 →
    (unpad x = some r ↔ ∃ p, 1 ≤ p ∧ p ≤ 16 ∧ x = r ++ rep (BitVec.ofNat 8 p) p)) ∧
  ∀ m : List Byte, unpad (pad m) = some m

/-- R162, R164: on whole blocks, block `i` of the encryption is Cipher of the exclusive or of block `i` and the ciphertext
block before it, the IV before the first; block `i` of the decryption is the exclusive or of InvCipher of block `i` and the
ciphertext block before it, the IV before the first; each inverts the other, and both keep the length. -/
def Obligations.CbcDecryptionInvertsEncryption : Prop :=
  ∀ (w : Schedule) (iv : Block) (x : List Byte), x.length % 16 = 0 →
    (∀ i, 16 * i < x.length →
      toBlock ((cbcEnc w iv x).drop (16 * i)) =
          cipher w (blockXor (toBlock (x.drop (16 * i)))
            (if i = 0 then iv else toBlock ((cbcEnc w iv x).drop (16 * (i - 1))))) ∧
        toBlock ((cbcDec w iv x).drop (16 * i)) =
          blockXor (invCipher w (toBlock (x.drop (16 * i)))) (if i = 0 then iv else toBlock (x.drop (16 * (i - 1))))) ∧
    cbcDec w iv (cbcEnc w iv x) = x ∧ cbcEnc w iv (cbcDec w iv x) = x ∧
    (cbcEnc w iv x).length = x.length ∧ (cbcDec w iv x).length = x.length ∧
    ∀ a b : Block, blockBytes (blockXor a b) = List.zipWith (· ^^^ ·) (blockBytes a) (blockBytes b)

/-- R163, R167: decryption with unpadding inverts encryption with padding, whose length is the message's, grown by one and
rounded up to a multiple of 16. -/
def Obligations.CbcRoundTripWithPadding : Prop :=
  ∀ (w : Schedule) (iv : Block) (m : List Byte),
    cbcDecUnpad w iv (cbcEncPad w iv m) = some m ∧ (cbcEncPad w iv m).length = roundUp16 (m.length + 1)

/-- R166: CbcDecUnpad fails for a length that is not a positive multiple of 16 and is Unpad of CbcDec otherwise; on success
the plaintext is shorter than the ciphertext by 1 to 16 bytes. -/
def Obligations.CbcDecUnpadChecksLengths : Prop :=
  ∀ (w : Schedule) (iv : Block) (c : List Byte),
    (c.length = 0 ∨ c.length % 16 ≠ 0 → cbcDecUnpad w iv c = none) ∧
    (c.length ≠ 0 → c.length % 16 = 0 → cbcDecUnpad w iv c = unpad (cbcDec w iv c)) ∧
    ∀ r, cbcDecUnpad w iv c = some r → c.length ≤ r.length + 16 ∧ r.length + 1 ≤ c.length

/-- R167: with another IV the first 16 plaintext bytes come out changed by the exclusive or of the two IVs and the later
ones unchanged. -/
def Obligations.WrongIvChangesTheFirstBlockOnly : Prop :=
  ∀ (w : Schedule) (iv iv' : Block) (c : List Byte), 16 ≤ c.length → c.length % 16 = 0 →
    (cbcDec w iv' c).drop 16 = (cbcDec w iv c).drop 16 ∧
      toBlock ((cbcDec w iv' c).take 16) = blockXor (toBlock ((cbcDec w iv c).take 16)) (blockXor iv iv')

/-- R208: the ciphertext blocks before the one that holds the end of the payload do not depend on the nonce, and two
ciphertexts of one payload are equal exactly when their nonces are. -/
def Obligations.NonceReachesTheLastBlocksOnly : Prop :=
  ∀ (w : Schedule) (iv : Block) (m : List Byte) (x y : BitVec 32),
    (cbcEncPad w iv (m ++ be32 x)).take (16 * (m.length / 16)) =
        (cbcEncPad w iv (m ++ be32 y)).take (16 * (m.length / 16)) ∧
      (cbcEncPad w iv (m ++ be32 x) = cbcEncPad w iv (m ++ be32 y) ↔ x = y)

/-! ### DECRYPT -/

/-- R181: with ENC = 0 the result is NotEncrypted, whatever PLEN and PB hold, and nothing else changes; a DECRYPT that
succeeded leaves ENC = 0, so a second DECRYPT gives NotEncrypted. -/
def Obligations.DecryptRefusesUnflaggedPackets : Prop :=
  (∀ s : State, s.enc = false → exec .decrypt s = .next { s with err := .notEncrypted, busy := false }) ∧
  ∀ s t : State, exec .decrypt s = .next t → t.err = .success →
    t.enc = false ∧ exec .decrypt t = .next { t with err := .notEncrypted, busy := false }

/-- R182: with ENC = 1 and PLEN below 16 the result is MalformedPacket and nothing else changes; a payload of 16 bytes or
more passes the test. -/
def Obligations.DecryptRefusesShortPayloads : Prop :=
  ∀ s : State, s.enc = true →
    (s.len < 16 → exec .decrypt s = .next { s with err := .malformedPacket, busy := false }) ∧
    (16 ≤ s.len → s.len ≤ s.capacity → ∃ t, exec .decrypt s = .next t ∧ t.err ≠ .malformedPacket)

/-- R184: with a fingerprint function, a stored tag that is not the tag of the ciphertext and the prefix gives
IntegrityFailure, whatever the ciphertext decrypts to, and nothing else changes; a stored tag that is passes; without a
fingerprint function that error cannot occur. -/
def Obligations.DecryptChecksTheTagFirst : Prop :=
  ∀ s : State, s.enc = true → 16 ≤ s.len → s.len ≤ s.capacity →
    (∀ f, s.cfg.fp = some f → s.storedTag ≠ tag12 f s.c12 s.region →
      exec .decrypt s = .next { s with err := .integrityFailure, busy := false }) ∧
    (∀ f, s.cfg.fp = some f → s.storedTag = tag12 f s.c12 s.region →
      ∃ t, exec .decrypt s = .next t ∧ t.err ≠ .integrityFailure) ∧
    (s.cfg.fp = none → ∃ t, exec .decrypt s = .next t ∧ t.err ≠ .integrityFailure)

/-- R185: when the tag matches or there is none, a region whose length is not a positive multiple of 16, bad padding and a
plaintext too short for the nonce all give DecryptFailure, and nothing else changes. -/
def Obligations.DecryptRefusesBadPadding : Prop :=
  ∀ s : State, s.enc = true → 16 ≤ s.len → s.len ≤ s.capacity → s.TagMatches →
    (s.regionLen % 16 ≠ 0 ∨ cbcDecUnpad s.schedule s.iv s.region = none ∨
      (∃ r, cbcDecUnpad s.schedule s.iv s.region = some r ∧ r.length < 4)) →
    exec .decrypt s = .next { s with err := .decryptFailure, busy := false }

/-- R186: DECRYPT of a flagged payload of 16 bytes or more inside the buffer, whose tag matches and whose region opens with a
plaintext `r`: of four bytes or more, it completes with success, the payload is `r` without its last four bytes, ENC and
BUSY are cleared, and every register that DECRYPT does not write keeps its value; of fewer, it is a DecryptFailure. -/
def Obligations.DecryptStoresThePlaintext : Prop :=
  ∀ (s : State) (r : List Byte), s.enc = true → 16 ≤ s.len → s.len ≤ s.capacity → s.TagMatches →
    cbcDecUnpad s.schedule s.iv s.region = some r →
    (4 ≤ r.length →
      ∃ t, exec .decrypt s = .next t ∧ t.err = .success ∧ t.busy = false ∧ t.enc = false ∧
        t.len = r.length - 4 ∧ t.bytes 0 (r.length - 4) = r.take (r.length - 4) ∧
        SameOutside s t) ∧
    (r.length < 4 → exec .decrypt s = .next { s with err := .decryptFailure, busy := false })

/-- R188: after a failed DECRYPT, whatever the error, only ERR and BUSY differ from the state at issue. -/
def Obligations.FailedDecryptChangesOnlyTheResult : Prop :=
  ∀ s t : State, exec .decrypt s = .next t → t.err ≠ .success → t = { s with err := t.err, busy := false }

/-- R183, R229: DECRYPT always completes on a payload inside the buffer and reports the first error in the order
NotEncrypted, MalformedPacket, IntegrityFailure, DecryptFailure; it never reports MalformedBody or any other. -/
def Obligations.DecryptReportsTheFirstError : Prop :=
  ∀ s : State, s.len ≤ s.capacity →
    ∃ t, exec .decrypt s = .next t ∧ t.busy = false ∧
      t.err =
        (if s.enc = false then Err.notEncrypted
        else if s.len < 16 then .malformedPacket
        else if ∃ f, s.cfg.fp = some f ∧ s.storedTag ≠ tag12 f s.c12 s.region then .integrityFailure
        else if ∃ r, cbcDecUnpad s.schedule s.iv s.region = some r ∧ 4 ≤ r.length then .success
        else .decryptFailure)

/-- R34, R180, R227, R52: the frame of DECRYPT. Whatever its result, it writes no register but PLEN, ENC, ERR and BUSY, takes
no draw, and never lengthens the payload; unless it succeeds it writes no byte of PB and neither PLEN nor ENC. After a
success every byte below the new PLEN has been stored and no byte from there on is listed, that is, each is unspecified,
so no byte of PB is left to be unchanged. How draws are counted and how bytes are listed is the model's own
(assumptions 5 and 6). -/
def Obligations.DecryptFrame : Prop :=
  ∀ s t : State, exec .decrypt s = .next t →
    SameOutside s t ∧ t.rng = s.rng ∧ t.draws = s.draws ∧ t.busy = false ∧ t.len ≤ s.len ∧
      (t.err ≠ .success → t.plen = s.plen ∧ t.enc = s.enc ∧ ∀ a, t.byteAt a = s.byteAt a) ∧
      (t.err = .success → Memory.below t.pb t.len = true)

/-! ### ENCRYPT -/

/-- R200, R204, R206, R208: ENCRYPT of a payload that fits completes with success: PB starts with the ciphertext of
the payload and the draw, followed by its tag when there is a fingerprint function; PLEN is the length of the two; ENC
is set, BUSY cleared; one draw is taken; every register that ENCRYPT does not write keeps its value. How draws are
counted is the model's own (assumption 5). -/
def Obligations.EncryptStoresTheSealedPayload : Prop :=
  ∀ s : State, s.Fits →
    ∃ t, exec .encrypt s = .next t ∧ t.err = .success ∧ t.busy = false ∧ t.enc = true ∧
      t.len = roundUp16 (s.len + 5) + s.tagLen ∧
      t.bytes 0 (roundUp16 (s.len + 5)) = cbcEncPad s.schedule s.iv (s.bytes 0 s.len ++ be32 s.draw) ∧
      (∀ f, s.cfg.fp = some f →
        t.bytes (roundUp16 (s.len + 5)) 12 = tag12 f s.c12 (t.bytes 0 (roundUp16 (s.len + 5)))) ∧
      t.rng = s.rng.tail ∧ t.draws = s.draws + 1 ∧ SameOutside s t

/-- R201, R253: ENCRYPT always completes, and succeeds if and only if `round_up_16(n + 5) + 12 * FPEN <= PCAP`; a spare
capacity of `20 + 12 * FPEN` bytes is always enough. -/
def Obligations.EncryptSucceedsExactlyWhenItFits : Prop :=
  ∀ s : State, ∃ t, exec .encrypt s = .next t ∧ t.busy = false ∧
    (t.err = .success ↔ roundUp16 (s.len + 5) + (if s.fpen then 12 else 0) ≤ s.capacity) ∧
    (s.len + 20 + (if s.fpen then 12 else 0) ≤ s.capacity → t.err = .success)

/-- R205: the three capacity failures in the order of the steps. The growth that does not fit and the final length
that does not fit give LengthExceedsCapacity; between them, a ciphertext that does not fit gives EncryptFailure, which
with a fingerprint function is possible only when `(n + 4) mod 16` is at most 3. Which error a shortfall gives rests
on an inference the spec marks as its own: "Which of the two codes a given shortfall produces is this reading of the
source's step order" (R205), and U14 would have a claim accept either. -/
def Obligations.EncryptCapacityFailures : Prop :=
  ∀ s : State,
    (s.capacity < s.grown →
      ∃ t, exec .encrypt s = .next t ∧ t.err = .lengthExceedsCapacity) ∧
    (s.grown ≤ s.capacity → s.capacity < s.cipherLen →
      (∃ t, exec .encrypt s = .next t ∧ t.err = .encryptFailure) ∧ (s.fpen = true → (s.len + 4) % 16 ≤ 3)) ∧
    (s.grown ≤ s.capacity → s.cipherLen ≤ s.capacity → s.capacity < s.cipherLen + s.tagLen →
      ∃ t, exec .encrypt s = .next t ∧ t.err = .lengthExceedsCapacity)

/-- R210: after the growth failure nothing but ERR and BUSY has changed and one draw been taken; after the two later failures
ENC, the header-field registers and the configuration are as at issue and PLEN, though unspecified, is at most PCAP. PLEN is
then a free value (assumption 7); the statement holds for every value of it. How draws are counted, and that the growth
failure takes one, is the model's reading of R31 (assumption 5). -/
def Obligations.FailedEncryptLeavesTheRest : Prop :=
  ∀ s : State,
    (s.capacity < s.grown →
      exec .encrypt s =
        .next { s with err := .lengthExceedsCapacity, busy := false, rng := s.rng.tail, draws := s.draws + 1 }) ∧
    (s.grown ≤ s.capacity → ¬ s.Fits →
      ∃ t, exec .encrypt s = .next t ∧ t.err ≠ .success ∧ t.busy = false ∧ t.enc = s.enc ∧ t.len ≤ t.capacity ∧
        SameOutside s t)

/-- R207: ENCRYPT sets ENC on success only and does not read it: where it succeeds, it answers the same from the same
state with the flag changed; where it fails, the flag stays. Values the spec leaves unspecified are compared as the
model's free values (assumptions 6 and 7). -/
def Obligations.EncryptDoesNotReadTheFlag : Prop :=
  ∀ (s : State) (b : Bool),
    (s.Fits → exec .encrypt { s with enc := b } = exec .encrypt s) ∧
    (¬ s.Fits → ∀ t, exec .encrypt s = .next t → exec .encrypt { s with enc := b } = .next { t with enc := b })

/-- R31, R34, R200, R210, R211, R235: the frame of ENCRYPT. Whatever its result, it takes one draw, the RNG's next value, and
writes no register but PLEN, ENC, ERR and BUSY; ENC is set on success and as at issue otherwise; when the growth does not
fit it writes no byte of PB and not PLEN. After a success every byte below the new PLEN has been stored and no byte from
there on is listed, that is, each is unspecified; after the two later failures no byte is listed; so no byte of PB is left
to be unchanged. How draws are counted, that the growth failure takes one, and how bytes are listed is the model's own
(assumptions 5 and 6). -/
def Obligations.EncryptFrame : Prop :=
  ∀ s t : State, exec .encrypt s = .next t →
    SameOutside s t ∧ t.busy = false ∧ t.rng = s.rng.tail ∧ t.draws = s.draws + 1 ∧
      (t.err = .success → t.enc = true ∧ Memory.below t.pb t.len = true) ∧ (t.err ≠ .success → t.enc = s.enc) ∧
      (s.capacity < s.grown → t.plen = s.plen ∧ ∀ a, t.byteAt a = s.byteAt a) ∧
      (s.grown ≤ s.capacity → t.err ≠ .success → t.pb = [])

/-- R116, R204: after a successful ENCRYPT the encryption region is a positive multiple of 16 bytes long and its region ends
where the tag, if there is one, begins. -/
def Obligations.EncryptedRegionIsWholeBlocks : Prop :=
  ∀ s t : State, exec .encrypt s = .next t → t.err = .success →
    t.regionLen % 16 = 0 ∧ 16 ≤ t.regionLen ∧ t.len = t.regionLen + t.tagLen ∧ t.len ≤ t.capacity ∧
      s.len + 5 ≤ t.regionLen ∧ t.regionLen ≤ s.len + 20

/-! ### The two commands together -/

/-- R209, R12: the round trip. From any state that fits, DECRYPT after ENCRYPT succeeds and gives back PLEN and the payload,
with ENC = 0, for every draw, every key of either variant and every fingerprint function or none. -/
def Obligations.DecryptAfterEncryptGivesThePayloadBack : Prop :=
  ∀ s t : State, s.Fits → exec .encrypt s = .next t →
    ∃ u, exec .decrypt t = .next u ∧ u.err = .success ∧ u.busy = false ∧ u.enc = false ∧ u.plen = s.plen ∧
      u.bytes 0 s.len = s.bytes 0 s.len ∧ SameOutside s u

/-- R209, R255: any other engine with the same configuration and the same six header fields, given the sealed payload with
the flag set, decrypts it to the sender's payload. -/
def Obligations.ReceiverOpensTheSendersPacket : Prop :=
  ∀ s t r : State, s.Fits → exec .encrypt s = .next t → SameContext s r → r.enc = true → r.plen = t.plen →
    t.len ≤ r.capacity → r.bytes 0 t.len = t.bytes 0 t.len →
    ∃ u, exec .decrypt r = .next u ∧ u.err = .success ∧ u.enc = false ∧ u.plen = s.plen ∧
      u.bytes 0 s.len = s.bytes 0 s.len

/-- R96, R12: tamper detection. With a fingerprint function, a receiver whose header fields or ciphertext differ from the
sender's, the tag being the sender's, reports IntegrityFailure and changes nothing else, provided the function's first
twelve bytes do not collide on the two inputs; and so does, without any premise, one whose tag alone differs. -/
def Obligations.TamperedPacketsAreRejected : Prop :=
  ∀ (s t r : State) (f : Fingerprint), s.Fits → s.cfg.fp = some f → exec .encrypt s = .next t → r.cfg = s.cfg →
    r.enc = true → r.plen = t.plen → t.len ≤ r.capacity →
    (r.storedTag = t.storedTag → ¬ (r.c12 = s.c12 ∧ r.region = t.region) →
      f.TellsApart r.c12 r.region s.c12 t.region →
      exec .decrypt r = .next { r with err := .integrityFailure, busy := false }) ∧
    (r.c12 = s.c12 → r.region = t.region → r.storedTag ≠ t.storedTag →
      exec .decrypt r = .next { r with err := .integrityFailure, busy := false })

/-- R208: two ENCRYPTs of one payload under one header, with the draws `x` and `y`, give the same ciphertext exactly
when the draws are equal. The queue the draws come from is the model's own (assumption 5). -/
def Obligations.CiphertextsDifferExactlyWithTheDraws : Prop :=
  ∀ (s : State) (x y : BitVec 32) (more : List (BitVec 32)), s.Fits →
    ∃ t u, exec .encrypt { s with rng := x :: more } = .next t ∧ exec .encrypt { s with rng := y :: more } = .next u ∧
      t.err = .success ∧ u.err = .success ∧
      (t.bytes 0 (roundUp16 (s.len + 5)) = u.bytes 0 (roundUp16 (s.len + 5)) ↔ x = y)

/-- R207: ENCRYPT twice, then DECRYPT, gives back the inner sealed payload with ENC = 0, and a second DECRYPT is refused with
NotEncrypted. -/
def Obligations.DoubleEncryptionNeedsTheHost : Prop :=
  ∀ s t u : State, s.Fits → exec .encrypt s = .next t → t.Fits → exec .encrypt t = .next u →
    ∃ v, exec .decrypt u = .next v ∧ v.err = .success ∧ v.enc = false ∧ v.plen = t.plen ∧
      v.bytes 0 t.len = t.bytes 0 t.len ∧
      exec .decrypt v = .next { v with err := .notEncrypted, busy := false }

/-- R51, R31: from every state whose payload is inside the buffer every command completes: no access passes the end of
PB, so none faults; and when the memory listed no address beyond the buffer before, it lists none after. The listing
of addresses is the model's own (assumption 6). -/
def Obligations.CommandsStayInsideTheBuffer : Prop :=
  ∀ (s : State) (i : Instr), s.len ≤ s.capacity →
    ∃ t, exec i s = .next t ∧ t.busy = false ∧ t.len ≤ t.capacity ∧
      (Memory.below s.pb s.capacity = true → Memory.below t.pb t.capacity = true)

/-- R231: ERR is an input of no command: a command answers the same whatever ERR was at issue. Values the spec leaves
unspecified are compared as the model's free values (assumptions 6 and 7). -/
def Obligations.NoCommandReadsTheResult : Prop :=
  ∀ (s : State) (i : Instr) (e : Err), exec i { s with err := e } = exec i s

/-! ### Reset and the invariant -/

/-- R35: after reset BUSY, PLEN and ENC are 0 and ERR is success; nothing is claimed of what R35 leaves unspecified. -/
def Obligations.ResetLeavesTheControlStateClear : Prop :=
  State.reset.busy = false ∧ State.reset.err = .success ∧ State.reset.len = 0 ∧ State.reset.enc = false

/-- R36: the state after reset meets the invariant. The capacity of the state after reset and the form of its memory
are the model's own (assumptions 2 and 6). -/
def Obligations.ResetMeetsTheInvariant : Prop := State.reset.Inv

/-- R36, R52: every step of the machine keeps the invariant: PLEN at most PCAP, the payload memory in canonical form
and inside the buffer. The form of the memory is the model's own (assumption 6). -/
def Obligations.StepKeepsTheInvariant : Prop :=
  ∀ s t : State, s.Inv → step s = .next t → t.Inv

/-- R20, R36: no step changes the capacity, and none changes the configuration but a reset, which samples it again.
Turns and the host's program are the model's own (assumptions 8 and 9). -/
def Obligations.OnlyResetChangesTheConfiguration : Prop :=
  ∀ s t : State, step s = .next t →
    t.pcap = s.pcap ∧
      (t.cfg = s.cfg ∨ (s.turn = .host ∧ ∃ c rest, s.script = .reset c :: rest ∧ t.cfg = c))

/-- R250, R35: a reset, also one during a command, samples the configuration and clears BUSY, ERR, PLEN and ENC. Turns
and the host's program are the model's own (assumptions 8 and 9). -/
def Obligations.ResetSamplesTheConfiguration : Prop :=
  ∀ (s : State) (c : Sampled) (rest : List HostOp), s.turn = .host → s.script = .reset c :: rest →
    ∃ t, step s = .next t ∧ t.cfg = c ∧ t.busy = false ∧ t.err = .success ∧ t.len = 0 ∧ t.enc = false ∧
      t.pcap = s.pcap ∧ t.script = rest

/-- R260: a host that waits for a command in flight is served: WAIT ends after finitely many steps, with BUSY = 0,
whatever turns are laid down, and the last value read is the STATUS of the state it ends in. Turns and the host's
program are the model's own (assumptions 8 and 9). -/
def Obligations.WaitEnds : Prop :=
  ∀ (s : State) (rest : List HostOp), s.Inv → s.busy = true → s.script = .wait :: rest →
    ∃ k t, Host.Core.run Sys2Proof.core k s = .next t ∧ t.busy = false ∧ t.script = rest ∧
      ∃ before, t.reads = .reg 1 t.statusWord :: before

/-! ### The host's side -/

/-- R31: with BUSY = 0, a write of CMD latches the code and sets BUSY and does nothing else. Turns and the host's
program are the model's own (assumptions 8 and 9). -/
def Obligations.IssueLatchesTheCode : Prop :=
  ∀ (s : State) (v : BitVec 32) (rest : List HostOp), s.turn = .host → s.busy = false →
    s.script = .wr 0 v :: rest →
    step s = .next { s.atTurn with script := rest, cmdl := v.extractLsb' 0 8, busy := true }

/-- R57, R26, R32: with BUSY = 0, a host write of a register other than CMD changes its register and nothing else; a
value above PCAP for PLEN, a write of STATUS or INFO and a register number of 8 or above are refused. That the value
for PLEN is taken whole, so that one with a bit above bit 15 is refused, is the model's reading (assumption 11), the
refusals are assumption 14, and turns and the host's program are the model's own (assumptions 8 and 9). -/
def Obligations.HostWriteChangesOneRegister : Prop :=
  ∀ (s : State) (no : Nat) (v : BitVec 32) (rest : List HostOp), s.turn = .host → s.busy = false →
    s.script = .wr no v :: rest →
    (no = 3 → v.toNat ≤ s.capacity → ∃ t, step s = .next { s.atTurn with script := rest, plen := t } ∧ t.toNat = v.toNat) ∧
    (no = 3 → s.capacity < v.toNat → step s = .refused (.lengthAboveCapacity v.toNat)) ∧
    (no = 4 → step s = .next { s.atTurn with script := rest, hsrc := v }) ∧
    (no = 5 → step s = .next { s.atTurn with script := rest, hdst := v }) ∧
    (no = 6 → step s = .next { s.atTurn with
      script := rest
      hiproto := v.extractLsb' 0 8
      htproto := v.extractLsb' 8 8
      httl := v.extractLsb' 16 8
      hgw := v.getLsbD 24 }) ∧
    (no = 7 → step s = .next { s.atTurn with script := rest, enc := v.getLsbD 0 }) ∧
    (no = 1 ∨ no = 2 → step s = .refused (.writeOfReadOnly no)) ∧
    (8 ≤ no → step s = .refused (.noSuchRegister no))

/-- R57, R27, R51: with BUSY = 0, a host write of a payload byte inside the buffer changes that byte and nothing else,
and a read of a payload byte returns it and changes nothing; at an address of PCAP or above both are refused. Turns
and the host's program are the model's own (assumptions 8 and 9), and that an access outside the contract is refused
is assumption 14. -/
def Obligations.HostReachesEveryPayloadByte : Prop :=
  ∀ (s : State) (a : Nat) (rest : List HostOp), s.turn = .host → s.busy = false →
    (s.script = .rdb a :: rest →
      (a < s.capacity →
        step s = .next { s.atTurn with script := rest, reads := .byte a (s.byteAt a) :: s.reads }) ∧
      (s.capacity ≤ a → step s = .refused (.payloadAddress a))) ∧
    (∀ b, s.script = .wrb a b :: rest →
      (a < s.capacity →
        ∃ t, step s = .next t ∧ t = { s.atTurn with script := rest, pb := t.pb } ∧ t.byteAt a = b ∧
          ∀ x, x ≠ a → t.byteAt x = s.byteAt x) ∧
      (s.capacity ≤ a → step s = .refused (.payloadAddress a)))

/-- R57, R32, R75: with BUSY = 0, a host read of a readable register changes nothing and returns its fields; CMD cannot be
read and numbers 8 and above do not exist; a WAIT reads STATUS once, changes nothing, and is taken. That the reads outside
the contract are refused is assumption 14. Turns, the host's program and the list of reads are the model's own
(assumptions 8 and 9). -/
def Obligations.HostReadChangesNothing : Prop :=
  ∀ (s : State) (rest : List HostOp), s.turn = .host → s.busy = false →
    (∀ no, s.script = .rd no :: rest →
      (no = 0 → step s = .refused (.readOfWriteOnly 0)) ∧
      (8 ≤ no → step s = .refused (.noSuchRegister no)) ∧
      (1 ≤ no → no ≤ 7 →
        ∃ v, step s = .next { s.atTurn with script := rest, reads := .reg no v :: s.reads } ∧
          (no = 1 → v = s.statusWord) ∧ (no = 2 → v = s.infoWord) ∧ (no = 3 → v.toNat = s.len) ∧
          (no = 4 → v = s.hsrc) ∧ (no = 5 → v = s.hdst) ∧ (no = 6 → v = s.hprotoWord) ∧ (no = 7 → v = s.hflagWord))) ∧
    (s.script = .wait :: rest →
      step s = .next { s.atTurn with script := rest, reads := .reg 1 s.statusWord :: s.reads })

/-- R252, R29: while BUSY = 1 a host may read STATUS, by RD or by WAIT. What any other access does "is not defined by
the source or by this spec" (R252): that the step refuses it is the model's treatment, unsafe towards a host that
breaks its duties (assumption 14). Turns and the host's program are the model's own (assumptions 8 and 9). -/
def Obligations.BusyEngineRefusesTheHost : Prop :=
  ∀ (s : State) (op : HostOp) (rest : List HostOp), s.turn = .host → s.busy = true → s.script = op :: rest →
    (op = .rd 1 → step s = .next { s.atTurn with script := rest, reads := .reg 1 s.statusWord :: s.reads }) ∧
    (op = .wait → step s = .next { s.atTurn with reads := .reg 1 s.statusWord :: s.reads }) ∧
    (op ≠ .rd 1 → op ≠ .wait → (∀ c, op ≠ .reset c) → ∃ r, step s = .refused r)

/-- R32, R220: the fields of the packed registers: STATUS has BUSY in bit 7 and ERR's code in bits 3 to 0, INFO has KSEL in
bit 0 and FPEN in bit 1, HPROTO has HIPROTO in bits 7 to 0, HTPROTO in 15 to 8, HTTL in 23 to 16 and HGW in bit 24, HFLAG
has ENC in bit 0, and the other bits are 0; HPROTO returns what was written in its named bits; and the code of each
result is that of the table. -/
def Obligations.PackedRegistersHoldTheirFields : Prop :=
  (∀ (s : State) (v : BitVec 32),
    (s.statusWord.getLsbD 7 = s.busy ∧ s.statusWord.extractLsb' 0 4 = Err.code s.err ∧
      s.statusWord.extractLsb' 4 3 = 0#3 ∧ s.statusWord.extractLsb' 8 24 = 0#24) ∧
    (s.infoWord.getLsbD 0 = Key.ksel s.cfg.key ∧ s.infoWord.getLsbD 1 = s.cfg.fp.isSome ∧
      s.infoWord.extractLsb' 2 30 = 0#30) ∧
    (s.hprotoWord.extractLsb' 0 8 = s.hiproto ∧ s.hprotoWord.extractLsb' 8 8 = s.htproto ∧
      s.hprotoWord.extractLsb' 16 8 = s.httl ∧ s.hprotoWord.getLsbD 24 = s.hgw ∧
      s.hprotoWord.extractLsb' 25 7 = 0#7) ∧
    (s.hflagWord.getLsbD 0 = s.enc ∧ s.hflagWord.extractLsb' 1 31 = 0#31) ∧
    (s.setHproto v).hprotoWord = v &&& 0x01FFFFFF#32) ∧
  (Err.code .success = 0#4 ∧ Err.code .notEncrypted = 1#4 ∧ Err.code .malformedPacket = 2#4 ∧
    Err.code .malformedBody = 3#4 ∧ Err.code .integrityFailure = 4#4 ∧ Err.code .decryptFailure = 5#4 ∧
    Err.code .encryptFailure = 6#4 ∧ Err.code .lengthExceedsCapacity = 7#4 ∧ Err.code .illegalCommand = 15#4)

/-- R28, R231: ERR keeps its value until the next completion: no move of the host but reset changes it. Turns and the
host's program are the model's own (assumptions 8 and 9). -/
def Obligations.ResultStaysUntilTheNextCompletion : Prop :=
  ∀ s t : State, step s = .next t → t.err ≠ s.err →
    (s.turn = .engine ∧ s.busy = true) ∨ (s.turn = .host ∧ ∃ c rest, s.script = .reset c :: rest)
end

