-- ==== Sys2Proof/Laws/Bytes.lean ====
section
/-!
SUPPORT. Byte sequences, words and blocks: lengths, the two directions between byte sequences and blocks, and the exclusive
or.
-/

namespace Sys2Proof.Machine

@[simp] theorem wordBytes_length (w : Word) : (wordBytes w).length = 4 := rfl

@[simp] theorem blockBytes_length (b : Block) : (blockBytes b).length = 16 := rfl

@[simp] theorem blocksBytes_nil : blocksBytes [] = [] := rfl

@[simp] theorem blocksBytes_cons (b : Block) (bs : List Block) :
    blocksBytes (b :: bs) = blockBytes b ++ blocksBytes bs := rfl

@[simp] theorem blocksBytes_length (bs : List Block) : (blocksBytes bs).length = 16 * bs.length := by
  induction bs with
  | nil => rfl
  | cons b bs ih => simp [ih]; omega

@[simp] theorem toBlocks_nil : toBlocks [] = [] := rfl

@[simp] theorem toBlocks_blockBytes_append (b : Block) (x : List Byte) :
    toBlocks (blockBytes b ++ x) = b :: toBlocks x := rfl

@[simp] theorem toBlock_blockBytes (b : Block) : toBlock (blockBytes b) = b := rfl

@[simp] theorem toBlocks_blocksBytes (bs : List Block) : toBlocks (blocksBytes bs) = bs := by
  induction bs with
  | nil => rfl
  | cons b bs ih => simp [ih]

/-- A sequence of at least one block is a block and a rest. -/
theorem exists_block_append {x : List Byte} (h : 16 ≤ x.length) :
    ∃ (b : Block) (y : List Byte), x = blockBytes b ++ y := by
  match x, h with
  | a0 :: a1 :: a2 :: a3 :: a4 :: a5 :: a6 :: a7 :: a8 :: a9 :: a10 :: a11 :: a12 :: a13 :: a14 :: a15 :: y, _ =>
    exact ⟨⟨⟨a0, a1, a2, a3⟩, ⟨a4, a5, a6, a7⟩, ⟨a8, a9, a10, a11⟩, ⟨a12, a13, a14, a15⟩⟩, y, rfl⟩

/-- A sequence of whole blocks is the bytes of its blocks. -/
theorem exists_blocks {x : List Byte} (h : x.length % 16 = 0) : ∃ bs : List Block, x = blocksBytes bs := by
  generalize hn : x.length / 16 = n
  induction n generalizing x with
  | zero => exact ⟨[], by simpa using List.length_eq_zero_iff.mp (by omega)⟩
  | succ n ih =>
    obtain ⟨b, y, rfl⟩ := exists_block_append (x := x) (by omega)
    simp only [List.length_append, blockBytes_length] at h hn
    obtain ⟨bs, rfl⟩ := ih (x := y) (by omega) (by omega)
    exact ⟨b :: bs, rfl⟩

theorem blocksBytes_toBlocks {x : List Byte} (h : x.length % 16 = 0) : blocksBytes (toBlocks x) = x := by
  obtain ⟨bs, rfl⟩ := exists_blocks h
  simp

theorem toBlocks_length {x : List Byte} (h : x.length % 16 = 0) : (toBlocks x).length = x.length / 16 := by
  obtain ⟨bs, rfl⟩ := exists_blocks h
  simp

theorem toBlocks_append {x : List Byte} (h : x.length % 16 = 0) (y : List Byte) :
    toBlocks (x ++ y) = toBlocks x ++ toBlocks y := by
  obtain ⟨bs, rfl⟩ := exists_blocks h
  induction bs with
  | nil => rfl
  | cons b bs ih => simpa [List.append_assoc] using ih (by simp)

theorem blocksBytes_append (xs ys : List Block) : blocksBytes (xs ++ ys) = blocksBytes xs ++ blocksBytes ys := by
  induction xs with
  | nil => rfl
  | cons b bs ih => simp [ih]

/-- A sequence of sixteen bytes is the bytes of the block it is read as. -/
theorem blockBytes_toBlock {x : List Byte} (h : x.length = 16) : blockBytes (toBlock x) = x := by
  obtain ⟨b, y, rfl⟩ := exists_block_append (x := x) (by omega)
  have hy : y = [] := List.length_eq_zero_iff.mp (by simpa using h)
  subst hy
  simp

theorem blocksBytes_injective {xs ys : List Block} (h : blocksBytes xs = blocksBytes ys) : xs = ys := by
  simpa using congrArg toBlocks h

@[simp] theorem be32_length (v : BitVec 32) : (be32 v).length = 4 := rfl

theorem be32_injective {v w : BitVec 32} (h : be32 v = be32 w) : v = w := by
  simp only [be32, List.cons.injEq, and_true] at h
  obtain ⟨h3, h2, h1, h0⟩ := h
  ext i hi
  have bit (k : Nat) (hk : v.extractLsb' k 8 = w.extractLsb' k 8) (j : Nat) (hj : j < 8) :
      v.getLsbD (k + j) = w.getLsbD (k + j) := by
    simpa [BitVec.getLsbD_extractLsb', hj] using congrArg (fun x => BitVec.getLsbD x j) hk
  simp only [← BitVec.getLsbD_eq_getElem]
  by_cases c0 : i < 8
  · simpa using bit 0 h0 i c0
  by_cases c1 : i < 16
  · simpa [show 8 + (i - 8) = i by omega] using bit 8 h1 (i - 8) (by omega)
  by_cases c2 : i < 24
  · simpa [show 16 + (i - 16) = i by omega] using bit 16 h2 (i - 16) (by omega)
  · simpa [show 24 + (i - 24) = i by omega] using bit 24 h3 (i - 24) (by omega)

@[simp] theorem rep_length (v : Byte) (n : Nat) : (rep v n).length = n := by simp [rep]

theorem roundUp16_spec (x : Nat) : roundUp16 x % 16 = 0 ∧ x ≤ roundUp16 x ∧ roundUp16 x < x + 16 := by
  unfold roundUp16
  omega

theorem wordXor_comm (x y : Word) : wordXor x y = wordXor y x := by
  simp [wordXor, BitVec.xor_comm]

theorem wordXor_assoc (x y z : Word) : wordXor (wordXor x y) z = wordXor x (wordXor y z) := by
  simp [wordXor, BitVec.xor_assoc]

@[simp] theorem wordXor_self_right (x y : Word) : wordXor (wordXor x y) y = x := by
  simp [wordXor]

theorem blockXor_comm (x y : Block) : blockXor x y = blockXor y x := by
  simp [blockXor, wordXor_comm]

theorem blockXor_assoc (x y z : Block) : blockXor (blockXor x y) z = blockXor x (blockXor y z) := by
  simp [blockXor, wordXor_assoc]

/-- Adding a block twice gives back the other. -/
@[simp] theorem blockXor_self_right (x y : Block) : blockXor (blockXor x y) y = x := by
  simp [blockXor]

theorem blockXor_right_cancel {x y z : Block} (h : blockXor x z = blockXor y z) : x = y := by
  simpa using congrArg (fun b => blockXor b z) h

end Sys2Proof.Machine
end

