-- ==== Sys2Proof/Laws/Aes.lean ====
section
/-!
SUPPORT. The block cipher engine: `xtime` is additive, the rounds by their recursion, adding a round key twice, and the shape
of the key schedule.
-/

namespace Sys2Proof.Machine

/-- `xtime` of a sum is the sum of the `xtime`s (R131, R132). -/
theorem xtime_xor (a b : Byte) : xtime (a ^^^ b) = xtime a ^^^ xtime b := by
  unfold xtime
  rw [BitVec.getLsbD_xor, BitVec.shiftLeft_xor_distrib]
  cases a.getLsbD 7 <;> cases b.getLsbD 7 <;> simp
  · rw [BitVec.xor_assoc]
  · rw [BitVec.xor_assoc, BitVec.xor_comm (b <<< 1), BitVec.xor_assoc]
  · rw [BitVec.xor_assoc (a <<< 1), BitVec.xor_comm 27#8, BitVec.xor_assoc (b <<< 1)]
    simp

theorem xtimes_xor (i : Nat) (a b : Byte) : xtimes i (a ^^^ b) = xtimes i a ^^^ xtimes i b := by
  induction i with
  | zero => rfl
  | succ i ih => rw [xtimes, ih, xtime_xor]; rfl

@[simp] theorem xtimes_zero (a : Byte) : xtimes 0 a = a := rfl

theorem xtimes_succ (i : Nat) (a : Byte) : xtimes (i + 1) a = xtime (xtimes i a) := rfl

/-- Adding the same round key twice changes nothing. -/
@[simp] theorem addRoundKey_addRoundKey (s : Block) (w : Schedule) (j : Nat) :
    addRoundKey (addRoundKey s w j) w j = s := by
  simp [addRoundKey]

theorem cipherRounds_zero (w : Schedule) (s : Block) : cipherRounds w 0 s = addRoundKey s w 0 := rfl

theorem cipherRounds_succ (w : Schedule) (j : Nat) (s : Block) :
    cipherRounds w (j + 1) s = addRoundKey (mixColumns (shiftRows (subBytes (cipherRounds w j s)))) w (j + 1) := rfl

theorem invCipherRounds_zero (w : Schedule) (s : Block) :
    invCipherRounds w 0 s = addRoundKey (invSubBytes (invShiftRows s)) w 0 := rfl

theorem invCipherRounds_succ (w : Schedule) (j : Nat) (s : Block) :
    invCipherRounds w (j + 1) s =
      invCipherRounds w j (invMixColumns (addRoundKey (invSubBytes (invShiftRows s)) w (j + 1))) := rfl

@[simp] theorem Key.words_length (k : Key) : (Key.words k).length = Key.nk k := by cases k <;> rfl

@[simp] theorem expandWords_length (nk n : Nat) (w : List Word) : (expandWords nk n w).length = w.length + n := by
  induction n generalizing w with
  | zero => rfl
  | succ n ih => simp [expandWords, ih]; omega

/-- The words a schedule starts from stay at its start. -/
theorem expandWords_getD {nk n : Nat} {w : List Word} {i : Nat} (h : i < w.length) :
    (expandWords nk n w).getD i zeroWord = w.getD i zeroWord := by
  induction n generalizing w with
  | zero => rfl
  | succ n ih =>
    rw [expandWords, ih (by simp; omega), List.getD_append _ _ _ _ h]

end Sys2Proof.Machine
end

