-- ==== Sys2Proof/Laws/Cbc.lean ====
section
/-!
SUPPORT. The block mode and the padding: lengths, and the block-by-block form of the byte-level transforms.
-/

namespace Sys2Proof.Machine

theorem pad_length (m : List Byte) : (pad m).length = 16 * (m.length / 16) + 16 := by
  simp only [pad, List.length_append, rep_length]
  omega

theorem pad_length_mod (m : List Byte) : (pad m).length % 16 = 0 := by
  rw [pad_length]
  omega

@[simp] theorem cbcEncBlocks_nil (w : Schedule) (p : Block) : cbcEncBlocks w p [] = [] := rfl

@[simp] theorem cbcEncBlocks_cons (w : Schedule) (p x : Block) (xs : List Block) :
    cbcEncBlocks w p (x :: xs) = cipher w (blockXor x p) :: cbcEncBlocks w (cipher w (blockXor x p)) xs := rfl

@[simp] theorem cbcDecBlocks_nil (w : Schedule) (p : Block) : cbcDecBlocks w p [] = [] := rfl

@[simp] theorem cbcDecBlocks_cons (w : Schedule) (p c : Block) (cs : List Block) :
    cbcDecBlocks w p (c :: cs) = blockXor (invCipher w c) p :: cbcDecBlocks w c cs := rfl

@[simp] theorem cbcEncBlocks_length (w : Schedule) (p : Block) (xs : List Block) :
    (cbcEncBlocks w p xs).length = xs.length := by
  induction xs generalizing p with
  | nil => rfl
  | cons x xs ih => simp [ih]

@[simp] theorem cbcDecBlocks_length (w : Schedule) (p : Block) (cs : List Block) :
    (cbcDecBlocks w p cs).length = cs.length := by
  induction cs generalizing p with
  | nil => rfl
  | cons c cs ih => simp [ih]

theorem cbcEnc_length (w : Schedule) (iv : Block) {x : List Byte} (h : x.length % 16 = 0) :
    (cbcEnc w iv x).length = x.length := by
  simp only [cbcEnc, blocksBytes_length, cbcEncBlocks_length, toBlocks_length h]
  omega

theorem cbcDec_length (w : Schedule) (iv : Block) {c : List Byte} (h : c.length % 16 = 0) :
    (cbcDec w iv c).length = c.length := by
  simp only [cbcDec, blocksBytes_length, cbcDecBlocks_length, toBlocks_length h]
  omega

/-- The length of a ciphertext (R163). -/
theorem cbcEncPad_length (w : Schedule) (iv : Block) (m : List Byte) :
    (cbcEncPad w iv m).length = 16 * (m.length / 16) + 16 := by
  rw [cbcEncPad, cbcEnc_length w iv (pad_length_mod m), pad_length]

/-- The chain over two parts: the second part goes on from the last block of the first. -/
theorem cbcEncBlocks_append (w : Schedule) (p : Block) (xs ys : List Block) :
    cbcEncBlocks w p (xs ++ ys) =
      cbcEncBlocks w p xs ++ cbcEncBlocks w ((cbcEncBlocks w p xs).getLastD p) ys := by
  induction xs generalizing p with
  | nil => rfl
  | cons x xs ih => simp [ih, List.getLast?_cons]

/-- What `Unpad` can answer (R165). -/
theorem unpad_eq_some {x r : List Byte} :
    unpad x = some r ↔
      ∃ p, x.getLast? = some p ∧ 1 ≤ p.toNat ∧ p.toNat ≤ 16 ∧
        (∀ b ∈ x.drop (x.length - p.toNat), b = p) ∧ r = x.take (x.length - p.toNat) := by
  unfold unpad
  cases hx : x.getLast? with
  | none => simp
  | some p =>
    simp only [Option.some.injEq, exists_eq_left']
    by_cases hp : p.toNat < 1 ∨ 16 < p.toNat
    · simp only [hp, if_true]
      constructor
      · intro h; simp at h
      · rintro ⟨h1, h2, -⟩; omega
    · simp only [hp, if_false]
      by_cases ha : (x.drop (x.length - p.toNat)).all (fun b => b == p) = true
      · rw [if_pos ha]
        simp only [List.all_eq_true, beq_iff_eq] at ha
        constructor
        · intro h; exact ⟨by omega, by omega, ha, by simpa using h.symm⟩
        · rintro ⟨-, -, -, h⟩; rw [h]
      · rw [if_neg ha]
        simp only [List.all_eq_true, beq_iff_eq] at ha
        constructor
        · intro h; simp at h
        · rintro ⟨-, -, h, -⟩; exact absurd h ha

/-- What `CbcDecUnpad` can answer (R166). -/
theorem cbcDecUnpad_eq_some {w : Schedule} {iv : Block} {c r : List Byte} :
    cbcDecUnpad w iv c = some r ↔ c.length ≠ 0 ∧ c.length % 16 = 0 ∧ unpad (cbcDec w iv c) = some r := by
  unfold cbcDecUnpad
  split
  · next h =>
    constructor
    · intro h'; simp at h'
    · rintro ⟨h0, h16, -⟩; omega
  · next h => simp only [not_or, Decidable.not_not] at h; simp [h]

/-- A plaintext that `CbcDecUnpad` answers is shorter than its ciphertext (R166). -/
theorem cbcDecUnpad_length_lt {w : Schedule} {iv : Block} {c r : List Byte} (h : cbcDecUnpad w iv c = some r) :
    r.length < c.length := by
  obtain ⟨h0, h16, hu⟩ := cbcDecUnpad_eq_some.mp h
  obtain ⟨p, -, hp1, hp2, -, rfl⟩ := unpad_eq_some.mp hu
  rw [List.length_take, cbcDec_length w iv h16]
  omega

end Sys2Proof.Machine
end

