-- ==== Sys2Proof/Laws/Memory.lean ====
section
/-!
SUPPORT. Payload memory as data: what is read after a write and after a forgetting, and that every operation keeps the
canonical form and the range of the addresses.
-/

namespace Sys2Proof.Machine

@[simp] theorem Memory.get?_nil (a : Nat) : Memory.get? [] a = none := rfl

@[simp] theorem Memory.get?_set_self (m : Memory) (a : Nat) (b : Byte) :
    Memory.get? (Memory.set m a b) a = some b := by
  induction m with
  | nil => simp [Memory.set, Memory.get?]
  | cons c rest ih =>
    unfold Memory.set
    split
    · simp [Memory.get?]
    split
    · simp [Memory.get?]
    · next h1 h2 => simp [Memory.get?, Ne.symm h2, ih]

theorem Memory.get?_set_other (m : Memory) {a x : Nat} (b : Byte) (h : x ≠ a) :
    Memory.get? (Memory.set m a b) x = Memory.get? m x := by
  induction m with
  | nil => simp [Memory.set, Memory.get?, Ne.symm h]
  | cons c rest ih =>
    unfold Memory.set
    split
    · simp [Memory.get?, Ne.symm h]
    split
    · next _ h2 => subst h2; simp [Memory.get?, Ne.symm h]
    · simp [Memory.get?, ih]

/-- What an address holds after a sequence of bytes has been stored. -/
theorem Memory.get?_setBytes (m : Memory) (a : Nat) (v : List Byte) (x : Nat) :
    Memory.get? (Memory.setBytes m a v) x =
      if a ≤ x ∧ x < a + v.length then some (v.getD (x - a) 0#8) else Memory.get? m x := by
  induction v generalizing m a with
  | nil => simp [Memory.setBytes]
  | cons b rest ih =>
    rw [Memory.setBytes, ih]
    by_cases hx : x = a
    · subst hx
      simp
    · rw [Memory.get?_set_other m b hx]
      by_cases hin : a + 1 ≤ x ∧ x < a + 1 + rest.length
      · rw [if_pos hin, if_pos (by simp; omega), show x - a = (x - (a + 1)) + 1 by omega]
        simp
      · rw [if_neg hin, if_neg (by simp; omega)]

theorem Memory.get?_keepBelow (m : Memory) (k x : Nat) :
    Memory.get? (Memory.keepBelow m k) x = if x < k then Memory.get? m x else none := by
  induction m with
  | nil => simp [Memory.keepBelow]
  | cons c rest ih =>
    simp only [Memory.keepBelow] at ih ⊢
    by_cases hc : c.1 < k
    · rw [List.filter_cons_of_pos (by simpa using hc), Memory.get?, Memory.get?, ih]
      by_cases hx : c.1 = x
      · simp [hx, hx ▸ hc]
      · simp [hx]
    · rw [List.filter_cons_of_neg (by simpa using hc), ih, Memory.get?]
      by_cases hx : x < k
      · simp [hx, show ¬ c.1 = x by omega]
      · simp [hx]

/-! ### The canonical form -/

theorem Memory.risesFrom_mono {k l : Nat} {m : Memory} (h : Memory.risesFrom l m = true) (hkl : k ≤ l) :
    Memory.risesFrom k m = true := by
  cases m with
  | nil => rfl
  | cons c rest => simp only [Memory.risesFrom, Bool.and_eq_true, decide_eq_true_eq] at h ⊢; exact ⟨by omega, h.2⟩

theorem Memory.risesFrom_set {k a : Nat} {m : Memory} (b : Byte) (h : Memory.risesFrom k m = true) (ha : k < a) :
    Memory.risesFrom k (Memory.set m a b) = true := by
  induction m generalizing k with
  | nil => simp [Memory.set, Memory.risesFrom, ha]
  | cons c rest ih =>
    simp only [Memory.risesFrom, Bool.and_eq_true, decide_eq_true_eq] at h
    unfold Memory.set
    split
    · next hlt => simp [Memory.risesFrom, ha, hlt, h.2]
    split
    · next _ heq => subst heq; simp [Memory.risesFrom, ha, h.2]
    · next h1 h2 => simp [Memory.risesFrom, h.1, ih h.2 (by omega)]

/-- A write keeps the canonical form. -/
theorem Memory.wf_set {m : Memory} (a : Nat) (b : Byte) (h : Memory.wf m = true) :
    Memory.wf (Memory.set m a b) = true := by
  cases m with
  | nil => rfl
  | cons c rest =>
    simp only [Memory.wf] at h
    unfold Memory.set
    split
    · next hlt => simp [Memory.wf, Memory.risesFrom, hlt, h]
    split
    · next _ heq => subst heq; simpa [Memory.wf] using h
    · next h1 h2 => simpa [Memory.wf] using Memory.risesFrom_set b h (by omega)

theorem Memory.wf_setBytes {m : Memory} (a : Nat) (v : List Byte) (h : Memory.wf m = true) :
    Memory.wf (Memory.setBytes m a v) = true := by
  induction v generalizing m a with
  | nil => exact h
  | cons b rest ih => exact ih (a + 1) (Memory.wf_set a b h)

theorem Memory.risesFrom_keepBelow {j k : Nat} {m : Memory} (h : Memory.risesFrom j m = true) :
    Memory.risesFrom j (Memory.keepBelow m k) = true := by
  induction m generalizing j with
  | nil => rfl
  | cons c rest ih =>
    simp only [Memory.risesFrom, Bool.and_eq_true, decide_eq_true_eq] at h
    by_cases hc : c.1 < k
    · simpa [Memory.keepBelow, hc, Memory.risesFrom, h.1] using ih h.2
    · simpa [Memory.keepBelow, hc] using ih (Memory.risesFrom_mono h.2 (Nat.le_of_lt h.1))

/-- Forgetting keeps the canonical form. -/
theorem Memory.wf_keepBelow {m : Memory} (k : Nat) (h : Memory.wf m = true) :
    Memory.wf (Memory.keepBelow m k) = true := by
  have of_rises {j : Nat} {l : Memory} (hl : Memory.risesFrom j l = true) : Memory.wf l = true := by
    cases l with
    | nil => rfl
    | cons d t => simp only [Memory.risesFrom, Bool.and_eq_true] at hl; exact hl.2
  cases m with
  | nil => rfl
  | cons c rest =>
    simp only [Memory.wf] at h
    by_cases hc : c.1 < k
    · simpa [Memory.keepBelow, hc, Memory.wf] using Memory.risesFrom_keepBelow (k := k) h
    · simpa [Memory.keepBelow, hc] using of_rises (Memory.risesFrom_keepBelow (k := k) h)

/-! ### The range of the addresses -/

theorem Memory.below_set {m : Memory} {k a : Nat} (b : Byte) (h : Memory.below m k = true) (ha : a < k) :
    Memory.below (Memory.set m a b) k = true := by
  induction m with
  | nil => simpa [Memory.set, Memory.below] using ha
  | cons c rest ih =>
    simp only [Memory.below, List.all_cons, Bool.and_eq_true, decide_eq_true_eq] at h ih ⊢
    unfold Memory.set
    split
    · simp only [List.all_cons, Bool.and_eq_true, decide_eq_true_eq]; exact ⟨ha, h⟩
    split
    · simp only [List.all_cons, Bool.and_eq_true, decide_eq_true_eq]; exact ⟨ha, h.2⟩
    · simp only [List.all_cons, Bool.and_eq_true, decide_eq_true_eq]; exact ⟨h.1, ih h.2⟩

theorem Memory.below_setBytes {m : Memory} {k a : Nat} (v : List Byte) (h : Memory.below m k = true)
    (ha : a + v.length ≤ k) : Memory.below (Memory.setBytes m a v) k = true := by
  induction v generalizing m a with
  | nil => exact h
  | cons b rest ih =>
    simp only [List.length_cons] at ha
    exact ih (Memory.below_set b h (by omega)) (by omega)

theorem Memory.below_keepBelow {m : Memory} {k : Nat} (j : Nat) (h : Memory.below m k = true) :
    Memory.below (Memory.keepBelow m j) k = true := by
  simp only [Memory.below, Memory.keepBelow, List.all_eq_true, List.mem_filter] at h ⊢
  exact fun c hc => h c hc.1

end Sys2Proof.Machine
end

