-- ==== Sys2Proof/Laws/State.lean ====
section
/-!
SUPPORT. What each named update of the state leaves in each field, and in each reading made of the fields it does not write.
Every lemma holds by unfolding the one update, so that no later proof unfolds a record update.
-/

namespace Sys2Proof.Machine

variable (s : State)

/-! ### `setPb` -/

@[simp] theorem State.setPb_pcap (m : Memory) : (s.setPb m).pcap = s.pcap := rfl
@[simp] theorem State.setPb_cfg (m : Memory) : (s.setPb m).cfg = s.cfg := rfl
@[simp] theorem State.setPb_hsrc (m : Memory) : (s.setPb m).hsrc = s.hsrc := rfl
@[simp] theorem State.setPb_hdst (m : Memory) : (s.setPb m).hdst = s.hdst := rfl
@[simp] theorem State.setPb_hiproto (m : Memory) : (s.setPb m).hiproto = s.hiproto := rfl
@[simp] theorem State.setPb_htproto (m : Memory) : (s.setPb m).htproto = s.htproto := rfl
@[simp] theorem State.setPb_httl (m : Memory) : (s.setPb m).httl = s.httl := rfl
@[simp] theorem State.setPb_hgw (m : Memory) : (s.setPb m).hgw = s.hgw := rfl
@[simp] theorem State.setPb_enc (m : Memory) : (s.setPb m).enc = s.enc := rfl
@[simp] theorem State.setPb_plen (m : Memory) : (s.setPb m).plen = s.plen := rfl
@[simp] theorem State.setPb_pb (m : Memory) : (s.setPb m).pb = m := rfl
@[simp] theorem State.setPb_err (m : Memory) : (s.setPb m).err = s.err := rfl
@[simp] theorem State.setPb_busy (m : Memory) : (s.setPb m).busy = s.busy := rfl
@[simp] theorem State.setPb_cmdl (m : Memory) : (s.setPb m).cmdl = s.cmdl := rfl
@[simp] theorem State.setPb_epoch (m : Memory) : (s.setPb m).epoch = s.epoch := rfl
@[simp] theorem State.setPb_draws (m : Memory) : (s.setPb m).draws = s.draws := rfl
@[simp] theorem State.setPb_rng (m : Memory) : (s.setPb m).rng = s.rng := rfl
@[simp] theorem State.setPb_sched (m : Memory) : (s.setPb m).sched = s.sched := rfl
@[simp] theorem State.setPb_script (m : Memory) : (s.setPb m).script = s.script := rfl
@[simp] theorem State.setPb_reads (m : Memory) : (s.setPb m).reads = s.reads := rfl
@[simp] theorem State.setPb_capacity (m : Memory) : (s.setPb m).capacity = s.capacity := rfl
@[simp] theorem State.setPb_fpen (m : Memory) : (s.setPb m).fpen = s.fpen := rfl
@[simp] theorem State.setPb_tagLen (m : Memory) : (s.setPb m).tagLen = s.tagLen := rfl
@[simp] theorem State.setPb_schedule (m : Memory) : (s.setPb m).schedule = s.schedule := rfl
@[simp] theorem State.setPb_c12 (m : Memory) : (s.setPb m).c12 = s.c12 := rfl
@[simp] theorem State.setPb_iv (m : Memory) : (s.setPb m).iv = s.iv := rfl
@[simp] theorem State.setPb_len (m : Memory) : (s.setPb m).len = s.len := rfl
@[simp] theorem State.setPb_draw (m : Memory) : (s.setPb m).draw = s.draw := rfl
@[simp] theorem State.setPb_grown (m : Memory) : (s.setPb m).grown = s.grown := rfl
@[simp] theorem State.setPb_cipherLen (m : Memory) : (s.setPb m).cipherLen = s.cipherLen := rfl
@[simp] theorem State.setPb_regionLen (m : Memory) : (s.setPb m).regionLen = s.regionLen := rfl

/-! ### `setPlen` -/

@[simp] theorem State.setPlen_pcap (n : Nat) : (s.setPlen n).pcap = s.pcap := rfl
@[simp] theorem State.setPlen_cfg (n : Nat) : (s.setPlen n).cfg = s.cfg := rfl
@[simp] theorem State.setPlen_hsrc (n : Nat) : (s.setPlen n).hsrc = s.hsrc := rfl
@[simp] theorem State.setPlen_hdst (n : Nat) : (s.setPlen n).hdst = s.hdst := rfl
@[simp] theorem State.setPlen_hiproto (n : Nat) : (s.setPlen n).hiproto = s.hiproto := rfl
@[simp] theorem State.setPlen_htproto (n : Nat) : (s.setPlen n).htproto = s.htproto := rfl
@[simp] theorem State.setPlen_httl (n : Nat) : (s.setPlen n).httl = s.httl := rfl
@[simp] theorem State.setPlen_hgw (n : Nat) : (s.setPlen n).hgw = s.hgw := rfl
@[simp] theorem State.setPlen_enc (n : Nat) : (s.setPlen n).enc = s.enc := rfl
@[simp] theorem State.setPlen_plen (n : Nat) : (s.setPlen n).plen = BitVec.ofNat 16 n := rfl
@[simp] theorem State.setPlen_pb (n : Nat) : (s.setPlen n).pb = s.pb := rfl
@[simp] theorem State.setPlen_err (n : Nat) : (s.setPlen n).err = s.err := rfl
@[simp] theorem State.setPlen_busy (n : Nat) : (s.setPlen n).busy = s.busy := rfl
@[simp] theorem State.setPlen_cmdl (n : Nat) : (s.setPlen n).cmdl = s.cmdl := rfl
@[simp] theorem State.setPlen_epoch (n : Nat) : (s.setPlen n).epoch = s.epoch := rfl
@[simp] theorem State.setPlen_draws (n : Nat) : (s.setPlen n).draws = s.draws := rfl
@[simp] theorem State.setPlen_rng (n : Nat) : (s.setPlen n).rng = s.rng := rfl
@[simp] theorem State.setPlen_sched (n : Nat) : (s.setPlen n).sched = s.sched := rfl
@[simp] theorem State.setPlen_script (n : Nat) : (s.setPlen n).script = s.script := rfl
@[simp] theorem State.setPlen_reads (n : Nat) : (s.setPlen n).reads = s.reads := rfl
@[simp] theorem State.setPlen_capacity (n : Nat) : (s.setPlen n).capacity = s.capacity := rfl
@[simp] theorem State.setPlen_fpen (n : Nat) : (s.setPlen n).fpen = s.fpen := rfl
@[simp] theorem State.setPlen_tagLen (n : Nat) : (s.setPlen n).tagLen = s.tagLen := rfl
@[simp] theorem State.setPlen_schedule (n : Nat) : (s.setPlen n).schedule = s.schedule := rfl
@[simp] theorem State.setPlen_c12 (n : Nat) : (s.setPlen n).c12 = s.c12 := rfl
@[simp] theorem State.setPlen_iv (n : Nat) : (s.setPlen n).iv = s.iv := rfl
@[simp] theorem State.setPlen_draw (n : Nat) : (s.setPlen n).draw = s.draw := rfl
@[simp] theorem State.setPlen_byteAt (n : Nat) (x : Nat) : (s.setPlen n).byteAt x = s.byteAt x := rfl
@[simp] theorem State.setPlen_bytes (n : Nat) (x k : Nat) : (s.setPlen n).bytes x k = s.bytes x k := rfl

/-! ### `setEnc` -/

@[simp] theorem State.setEnc_pcap (b : Bool) : (s.setEnc b).pcap = s.pcap := rfl
@[simp] theorem State.setEnc_cfg (b : Bool) : (s.setEnc b).cfg = s.cfg := rfl
@[simp] theorem State.setEnc_hsrc (b : Bool) : (s.setEnc b).hsrc = s.hsrc := rfl
@[simp] theorem State.setEnc_hdst (b : Bool) : (s.setEnc b).hdst = s.hdst := rfl
@[simp] theorem State.setEnc_hiproto (b : Bool) : (s.setEnc b).hiproto = s.hiproto := rfl
@[simp] theorem State.setEnc_htproto (b : Bool) : (s.setEnc b).htproto = s.htproto := rfl
@[simp] theorem State.setEnc_httl (b : Bool) : (s.setEnc b).httl = s.httl := rfl
@[simp] theorem State.setEnc_hgw (b : Bool) : (s.setEnc b).hgw = s.hgw := rfl
@[simp] theorem State.setEnc_enc (b : Bool) : (s.setEnc b).enc = b := rfl
@[simp] theorem State.setEnc_plen (b : Bool) : (s.setEnc b).plen = s.plen := rfl
@[simp] theorem State.setEnc_pb (b : Bool) : (s.setEnc b).pb = s.pb := rfl
@[simp] theorem State.setEnc_err (b : Bool) : (s.setEnc b).err = s.err := rfl
@[simp] theorem State.setEnc_busy (b : Bool) : (s.setEnc b).busy = s.busy := rfl
@[simp] theorem State.setEnc_cmdl (b : Bool) : (s.setEnc b).cmdl = s.cmdl := rfl
@[simp] theorem State.setEnc_epoch (b : Bool) : (s.setEnc b).epoch = s.epoch := rfl
@[simp] theorem State.setEnc_draws (b : Bool) : (s.setEnc b).draws = s.draws := rfl
@[simp] theorem State.setEnc_rng (b : Bool) : (s.setEnc b).rng = s.rng := rfl
@[simp] theorem State.setEnc_sched (b : Bool) : (s.setEnc b).sched = s.sched := rfl
@[simp] theorem State.setEnc_script (b : Bool) : (s.setEnc b).script = s.script := rfl
@[simp] theorem State.setEnc_reads (b : Bool) : (s.setEnc b).reads = s.reads := rfl
@[simp] theorem State.setEnc_capacity (b : Bool) : (s.setEnc b).capacity = s.capacity := rfl
@[simp] theorem State.setEnc_fpen (b : Bool) : (s.setEnc b).fpen = s.fpen := rfl
@[simp] theorem State.setEnc_tagLen (b : Bool) : (s.setEnc b).tagLen = s.tagLen := rfl
@[simp] theorem State.setEnc_schedule (b : Bool) : (s.setEnc b).schedule = s.schedule := rfl
@[simp] theorem State.setEnc_c12 (b : Bool) : (s.setEnc b).c12 = s.c12 := rfl
@[simp] theorem State.setEnc_iv (b : Bool) : (s.setEnc b).iv = s.iv := rfl
@[simp] theorem State.setEnc_len (b : Bool) : (s.setEnc b).len = s.len := rfl
@[simp] theorem State.setEnc_draw (b : Bool) : (s.setEnc b).draw = s.draw := rfl
@[simp] theorem State.setEnc_grown (b : Bool) : (s.setEnc b).grown = s.grown := rfl
@[simp] theorem State.setEnc_cipherLen (b : Bool) : (s.setEnc b).cipherLen = s.cipherLen := rfl
@[simp] theorem State.setEnc_regionLen (b : Bool) : (s.setEnc b).regionLen = s.regionLen := rfl
@[simp] theorem State.setEnc_byteAt (b : Bool) (x : Nat) : (s.setEnc b).byteAt x = s.byteAt x := rfl
@[simp] theorem State.setEnc_bytes (b : Bool) (x n : Nat) : (s.setEnc b).bytes x n = s.bytes x n := rfl

/-! ### `forgetFrom` -/

@[simp] theorem State.forgetFrom_pcap (k : Nat) : (s.forgetFrom k).pcap = s.pcap := rfl
@[simp] theorem State.forgetFrom_cfg (k : Nat) : (s.forgetFrom k).cfg = s.cfg := rfl
@[simp] theorem State.forgetFrom_hsrc (k : Nat) : (s.forgetFrom k).hsrc = s.hsrc := rfl
@[simp] theorem State.forgetFrom_hdst (k : Nat) : (s.forgetFrom k).hdst = s.hdst := rfl
@[simp] theorem State.forgetFrom_hiproto (k : Nat) : (s.forgetFrom k).hiproto = s.hiproto := rfl
@[simp] theorem State.forgetFrom_htproto (k : Nat) : (s.forgetFrom k).htproto = s.htproto := rfl
@[simp] theorem State.forgetFrom_httl (k : Nat) : (s.forgetFrom k).httl = s.httl := rfl
@[simp] theorem State.forgetFrom_hgw (k : Nat) : (s.forgetFrom k).hgw = s.hgw := rfl
@[simp] theorem State.forgetFrom_enc (k : Nat) : (s.forgetFrom k).enc = s.enc := rfl
@[simp] theorem State.forgetFrom_plen (k : Nat) : (s.forgetFrom k).plen = s.plen := rfl
@[simp] theorem State.forgetFrom_pb (k : Nat) : (s.forgetFrom k).pb = Memory.keepBelow s.pb k := rfl
@[simp] theorem State.forgetFrom_err (k : Nat) : (s.forgetFrom k).err = s.err := rfl
@[simp] theorem State.forgetFrom_busy (k : Nat) : (s.forgetFrom k).busy = s.busy := rfl
@[simp] theorem State.forgetFrom_cmdl (k : Nat) : (s.forgetFrom k).cmdl = s.cmdl := rfl
@[simp] theorem State.forgetFrom_epoch (k : Nat) : (s.forgetFrom k).epoch = s.epoch + 1 := rfl
@[simp] theorem State.forgetFrom_draws (k : Nat) : (s.forgetFrom k).draws = s.draws := rfl
@[simp] theorem State.forgetFrom_rng (k : Nat) : (s.forgetFrom k).rng = s.rng := rfl
@[simp] theorem State.forgetFrom_sched (k : Nat) : (s.forgetFrom k).sched = s.sched := rfl
@[simp] theorem State.forgetFrom_script (k : Nat) : (s.forgetFrom k).script = s.script := rfl
@[simp] theorem State.forgetFrom_reads (k : Nat) : (s.forgetFrom k).reads = s.reads := rfl
@[simp] theorem State.forgetFrom_capacity (k : Nat) : (s.forgetFrom k).capacity = s.capacity := rfl
@[simp] theorem State.forgetFrom_fpen (k : Nat) : (s.forgetFrom k).fpen = s.fpen := rfl
@[simp] theorem State.forgetFrom_tagLen (k : Nat) : (s.forgetFrom k).tagLen = s.tagLen := rfl
@[simp] theorem State.forgetFrom_schedule (k : Nat) : (s.forgetFrom k).schedule = s.schedule := rfl
@[simp] theorem State.forgetFrom_c12 (k : Nat) : (s.forgetFrom k).c12 = s.c12 := rfl
@[simp] theorem State.forgetFrom_iv (k : Nat) : (s.forgetFrom k).iv = s.iv := rfl
@[simp] theorem State.forgetFrom_len (k : Nat) : (s.forgetFrom k).len = s.len := rfl
@[simp] theorem State.forgetFrom_draw (k : Nat) : (s.forgetFrom k).draw = s.draw := rfl
@[simp] theorem State.forgetFrom_grown (k : Nat) : (s.forgetFrom k).grown = s.grown := rfl
@[simp] theorem State.forgetFrom_cipherLen (k : Nat) : (s.forgetFrom k).cipherLen = s.cipherLen := rfl
@[simp] theorem State.forgetFrom_regionLen (k : Nat) : (s.forgetFrom k).regionLen = s.regionLen := rfl

/-! ### `spoil` -/

@[simp] theorem State.spoil_pcap : (s.spoil).pcap = s.pcap := rfl
@[simp] theorem State.spoil_cfg : (s.spoil).cfg = s.cfg := rfl
@[simp] theorem State.spoil_hsrc : (s.spoil).hsrc = s.hsrc := rfl
@[simp] theorem State.spoil_hdst : (s.spoil).hdst = s.hdst := rfl
@[simp] theorem State.spoil_hiproto : (s.spoil).hiproto = s.hiproto := rfl
@[simp] theorem State.spoil_htproto : (s.spoil).htproto = s.htproto := rfl
@[simp] theorem State.spoil_httl : (s.spoil).httl = s.httl := rfl
@[simp] theorem State.spoil_hgw : (s.spoil).hgw = s.hgw := rfl
@[simp] theorem State.spoil_enc : (s.spoil).enc = s.enc := rfl
@[simp] theorem State.spoil_plen : (s.spoil).plen = BitVec.ofNat 16 (Config.freeLength (s.epoch + 1) % (s.capacity + 1)) := rfl
@[simp] theorem State.spoil_pb : (s.spoil).pb = [] := rfl
@[simp] theorem State.spoil_err : (s.spoil).err = s.err := rfl
@[simp] theorem State.spoil_busy : (s.spoil).busy = s.busy := rfl
@[simp] theorem State.spoil_cmdl : (s.spoil).cmdl = s.cmdl := rfl
@[simp] theorem State.spoil_epoch : (s.spoil).epoch = s.epoch + 1 := rfl
@[simp] theorem State.spoil_draws : (s.spoil).draws = s.draws := rfl
@[simp] theorem State.spoil_rng : (s.spoil).rng = s.rng := rfl
@[simp] theorem State.spoil_sched : (s.spoil).sched = s.sched := rfl
@[simp] theorem State.spoil_script : (s.spoil).script = s.script := rfl
@[simp] theorem State.spoil_reads : (s.spoil).reads = s.reads := rfl
@[simp] theorem State.spoil_capacity : (s.spoil).capacity = s.capacity := rfl
@[simp] theorem State.spoil_fpen : (s.spoil).fpen = s.fpen := rfl
@[simp] theorem State.spoil_tagLen : (s.spoil).tagLen = s.tagLen := rfl
@[simp] theorem State.spoil_schedule : (s.spoil).schedule = s.schedule := rfl
@[simp] theorem State.spoil_c12 : (s.spoil).c12 = s.c12 := rfl
@[simp] theorem State.spoil_iv : (s.spoil).iv = s.iv := rfl
@[simp] theorem State.spoil_draw : (s.spoil).draw = s.draw := rfl

/-! ### `complete` -/

@[simp] theorem State.complete_pcap (e : Err) : (s.complete e).pcap = s.pcap := rfl
@[simp] theorem State.complete_cfg (e : Err) : (s.complete e).cfg = s.cfg := rfl
@[simp] theorem State.complete_hsrc (e : Err) : (s.complete e).hsrc = s.hsrc := rfl
@[simp] theorem State.complete_hdst (e : Err) : (s.complete e).hdst = s.hdst := rfl
@[simp] theorem State.complete_hiproto (e : Err) : (s.complete e).hiproto = s.hiproto := rfl
@[simp] theorem State.complete_htproto (e : Err) : (s.complete e).htproto = s.htproto := rfl
@[simp] theorem State.complete_httl (e : Err) : (s.complete e).httl = s.httl := rfl
@[simp] theorem State.complete_hgw (e : Err) : (s.complete e).hgw = s.hgw := rfl
@[simp] theorem State.complete_enc (e : Err) : (s.complete e).enc = s.enc := rfl
@[simp] theorem State.complete_plen (e : Err) : (s.complete e).plen = s.plen := rfl
@[simp] theorem State.complete_pb (e : Err) : (s.complete e).pb = s.pb := rfl
@[simp] theorem State.complete_err (e : Err) : (s.complete e).err = e := rfl
@[simp] theorem State.complete_busy (e : Err) : (s.complete e).busy = false := rfl
@[simp] theorem State.complete_cmdl (e : Err) : (s.complete e).cmdl = s.cmdl := rfl
@[simp] theorem State.complete_epoch (e : Err) : (s.complete e).epoch = s.epoch := rfl
@[simp] theorem State.complete_draws (e : Err) : (s.complete e).draws = s.draws := rfl
@[simp] theorem State.complete_rng (e : Err) : (s.complete e).rng = s.rng := rfl
@[simp] theorem State.complete_sched (e : Err) : (s.complete e).sched = s.sched := rfl
@[simp] theorem State.complete_script (e : Err) : (s.complete e).script = s.script := rfl
@[simp] theorem State.complete_reads (e : Err) : (s.complete e).reads = s.reads := rfl
@[simp] theorem State.complete_capacity (e : Err) : (s.complete e).capacity = s.capacity := rfl
@[simp] theorem State.complete_fpen (e : Err) : (s.complete e).fpen = s.fpen := rfl
@[simp] theorem State.complete_tagLen (e : Err) : (s.complete e).tagLen = s.tagLen := rfl
@[simp] theorem State.complete_schedule (e : Err) : (s.complete e).schedule = s.schedule := rfl
@[simp] theorem State.complete_c12 (e : Err) : (s.complete e).c12 = s.c12 := rfl
@[simp] theorem State.complete_iv (e : Err) : (s.complete e).iv = s.iv := rfl
@[simp] theorem State.complete_len (e : Err) : (s.complete e).len = s.len := rfl
@[simp] theorem State.complete_draw (e : Err) : (s.complete e).draw = s.draw := rfl
@[simp] theorem State.complete_grown (e : Err) : (s.complete e).grown = s.grown := rfl
@[simp] theorem State.complete_cipherLen (e : Err) : (s.complete e).cipherLen = s.cipherLen := rfl
@[simp] theorem State.complete_regionLen (e : Err) : (s.complete e).regionLen = s.regionLen := rfl
@[simp] theorem State.complete_byteAt (e : Err) (x : Nat) : (s.complete e).byteAt x = s.byteAt x := rfl
@[simp] theorem State.complete_bytes (e : Err) (x n : Nat) : (s.complete e).bytes x n = s.bytes x n := rfl

/-! ### `afterDraw` -/

@[simp] theorem State.afterDraw_pcap : (s.afterDraw).pcap = s.pcap := rfl
@[simp] theorem State.afterDraw_cfg : (s.afterDraw).cfg = s.cfg := rfl
@[simp] theorem State.afterDraw_hsrc : (s.afterDraw).hsrc = s.hsrc := rfl
@[simp] theorem State.afterDraw_hdst : (s.afterDraw).hdst = s.hdst := rfl
@[simp] theorem State.afterDraw_hiproto : (s.afterDraw).hiproto = s.hiproto := rfl
@[simp] theorem State.afterDraw_htproto : (s.afterDraw).htproto = s.htproto := rfl
@[simp] theorem State.afterDraw_httl : (s.afterDraw).httl = s.httl := rfl
@[simp] theorem State.afterDraw_hgw : (s.afterDraw).hgw = s.hgw := rfl
@[simp] theorem State.afterDraw_enc : (s.afterDraw).enc = s.enc := rfl
@[simp] theorem State.afterDraw_plen : (s.afterDraw).plen = s.plen := rfl
@[simp] theorem State.afterDraw_pb : (s.afterDraw).pb = s.pb := rfl
@[simp] theorem State.afterDraw_err : (s.afterDraw).err = s.err := rfl
@[simp] theorem State.afterDraw_busy : (s.afterDraw).busy = s.busy := rfl
@[simp] theorem State.afterDraw_cmdl : (s.afterDraw).cmdl = s.cmdl := rfl
@[simp] theorem State.afterDraw_epoch : (s.afterDraw).epoch = s.epoch := rfl
@[simp] theorem State.afterDraw_draws : (s.afterDraw).draws = s.draws + 1 := rfl
@[simp] theorem State.afterDraw_rng : (s.afterDraw).rng = s.rng.tail := rfl
@[simp] theorem State.afterDraw_sched : (s.afterDraw).sched = s.sched := rfl
@[simp] theorem State.afterDraw_script : (s.afterDraw).script = s.script := rfl
@[simp] theorem State.afterDraw_reads : (s.afterDraw).reads = s.reads := rfl
@[simp] theorem State.afterDraw_capacity : (s.afterDraw).capacity = s.capacity := rfl
@[simp] theorem State.afterDraw_fpen : (s.afterDraw).fpen = s.fpen := rfl
@[simp] theorem State.afterDraw_tagLen : (s.afterDraw).tagLen = s.tagLen := rfl
@[simp] theorem State.afterDraw_schedule : (s.afterDraw).schedule = s.schedule := rfl
@[simp] theorem State.afterDraw_c12 : (s.afterDraw).c12 = s.c12 := rfl
@[simp] theorem State.afterDraw_iv : (s.afterDraw).iv = s.iv := rfl
@[simp] theorem State.afterDraw_len : (s.afterDraw).len = s.len := rfl
@[simp] theorem State.afterDraw_grown : (s.afterDraw).grown = s.grown := rfl
@[simp] theorem State.afterDraw_cipherLen : (s.afterDraw).cipherLen = s.cipherLen := rfl
@[simp] theorem State.afterDraw_regionLen : (s.afterDraw).regionLen = s.regionLen := rfl
@[simp] theorem State.afterDraw_byteAt (x : Nat) : (s.afterDraw).byteAt x = s.byteAt x := rfl
@[simp] theorem State.afterDraw_bytes (x n : Nat) : (s.afterDraw).bytes x n = s.bytes x n := rfl

/-! ### `issue` -/

@[simp] theorem State.issue_pcap (c : Byte) : (s.issue c).pcap = s.pcap := rfl
@[simp] theorem State.issue_cfg (c : Byte) : (s.issue c).cfg = s.cfg := rfl
@[simp] theorem State.issue_hsrc (c : Byte) : (s.issue c).hsrc = s.hsrc := rfl
@[simp] theorem State.issue_hdst (c : Byte) : (s.issue c).hdst = s.hdst := rfl
@[simp] theorem State.issue_hiproto (c : Byte) : (s.issue c).hiproto = s.hiproto := rfl
@[simp] theorem State.issue_htproto (c : Byte) : (s.issue c).htproto = s.htproto := rfl
@[simp] theorem State.issue_httl (c : Byte) : (s.issue c).httl = s.httl := rfl
@[simp] theorem State.issue_hgw (c : Byte) : (s.issue c).hgw = s.hgw := rfl
@[simp] theorem State.issue_enc (c : Byte) : (s.issue c).enc = s.enc := rfl
@[simp] theorem State.issue_plen (c : Byte) : (s.issue c).plen = s.plen := rfl
@[simp] theorem State.issue_pb (c : Byte) : (s.issue c).pb = s.pb := rfl
@[simp] theorem State.issue_err (c : Byte) : (s.issue c).err = s.err := rfl
@[simp] theorem State.issue_busy (c : Byte) : (s.issue c).busy = true := rfl
@[simp] theorem State.issue_cmdl (c : Byte) : (s.issue c).cmdl = c := rfl
@[simp] theorem State.issue_epoch (c : Byte) : (s.issue c).epoch = s.epoch := rfl
@[simp] theorem State.issue_draws (c : Byte) : (s.issue c).draws = s.draws := rfl
@[simp] theorem State.issue_rng (c : Byte) : (s.issue c).rng = s.rng := rfl
@[simp] theorem State.issue_sched (c : Byte) : (s.issue c).sched = s.sched := rfl
@[simp] theorem State.issue_script (c : Byte) : (s.issue c).script = s.script := rfl
@[simp] theorem State.issue_reads (c : Byte) : (s.issue c).reads = s.reads := rfl
@[simp] theorem State.issue_capacity (c : Byte) : (s.issue c).capacity = s.capacity := rfl
@[simp] theorem State.issue_fpen (c : Byte) : (s.issue c).fpen = s.fpen := rfl
@[simp] theorem State.issue_tagLen (c : Byte) : (s.issue c).tagLen = s.tagLen := rfl
@[simp] theorem State.issue_schedule (c : Byte) : (s.issue c).schedule = s.schedule := rfl
@[simp] theorem State.issue_c12 (c : Byte) : (s.issue c).c12 = s.c12 := rfl
@[simp] theorem State.issue_iv (c : Byte) : (s.issue c).iv = s.iv := rfl
@[simp] theorem State.issue_len (c : Byte) : (s.issue c).len = s.len := rfl
@[simp] theorem State.issue_draw (c : Byte) : (s.issue c).draw = s.draw := rfl
@[simp] theorem State.issue_grown (c : Byte) : (s.issue c).grown = s.grown := rfl
@[simp] theorem State.issue_cipherLen (c : Byte) : (s.issue c).cipherLen = s.cipherLen := rfl
@[simp] theorem State.issue_regionLen (c : Byte) : (s.issue c).regionLen = s.regionLen := rfl
@[simp] theorem State.issue_byteAt (c : Byte) (x : Nat) : (s.issue c).byteAt x = s.byteAt x := rfl
@[simp] theorem State.issue_bytes (c : Byte) (x n : Nat) : (s.issue c).bytes x n = s.bytes x n := rfl

/-! ### `afterReset` -/

@[simp] theorem State.afterReset_pcap (c : Sampled) : (s.afterReset c).pcap = s.pcap := rfl
@[simp] theorem State.afterReset_cfg (c : Sampled) : (s.afterReset c).cfg = c := rfl
@[simp] theorem State.afterReset_hsrc (c : Sampled) : (s.afterReset c).hsrc = 0#32 := rfl
@[simp] theorem State.afterReset_hdst (c : Sampled) : (s.afterReset c).hdst = 0#32 := rfl
@[simp] theorem State.afterReset_hiproto (c : Sampled) : (s.afterReset c).hiproto = 0#8 := rfl
@[simp] theorem State.afterReset_htproto (c : Sampled) : (s.afterReset c).htproto = 0#8 := rfl
@[simp] theorem State.afterReset_httl (c : Sampled) : (s.afterReset c).httl = 0#8 := rfl
@[simp] theorem State.afterReset_hgw (c : Sampled) : (s.afterReset c).hgw = false := rfl
@[simp] theorem State.afterReset_enc (c : Sampled) : (s.afterReset c).enc = false := rfl
@[simp] theorem State.afterReset_plen (c : Sampled) : (s.afterReset c).plen = 0#16 := rfl
@[simp] theorem State.afterReset_pb (c : Sampled) : (s.afterReset c).pb = [] := rfl
@[simp] theorem State.afterReset_err (c : Sampled) : (s.afterReset c).err = .success := rfl
@[simp] theorem State.afterReset_busy (c : Sampled) : (s.afterReset c).busy = false := rfl
@[simp] theorem State.afterReset_cmdl (c : Sampled) : (s.afterReset c).cmdl = 0#8 := rfl
@[simp] theorem State.afterReset_epoch (c : Sampled) : (s.afterReset c).epoch = s.epoch + 1 := rfl
@[simp] theorem State.afterReset_draws (c : Sampled) : (s.afterReset c).draws = s.draws := rfl
@[simp] theorem State.afterReset_rng (c : Sampled) : (s.afterReset c).rng = s.rng := rfl
@[simp] theorem State.afterReset_sched (c : Sampled) : (s.afterReset c).sched = s.sched := rfl
@[simp] theorem State.afterReset_script (c : Sampled) : (s.afterReset c).script = s.script := rfl
@[simp] theorem State.afterReset_reads (c : Sampled) : (s.afterReset c).reads = s.reads := rfl
@[simp] theorem State.afterReset_capacity (c : Sampled) : (s.afterReset c).capacity = s.capacity := rfl
@[simp] theorem State.afterReset_draw (c : Sampled) : (s.afterReset c).draw = s.draw := rfl

/-! ### `withScript` -/

@[simp] theorem State.withScript_pcap (l : List HostOp) : (s.withScript l).pcap = s.pcap := rfl
@[simp] theorem State.withScript_cfg (l : List HostOp) : (s.withScript l).cfg = s.cfg := rfl
@[simp] theorem State.withScript_hsrc (l : List HostOp) : (s.withScript l).hsrc = s.hsrc := rfl
@[simp] theorem State.withScript_hdst (l : List HostOp) : (s.withScript l).hdst = s.hdst := rfl
@[simp] theorem State.withScript_hiproto (l : List HostOp) : (s.withScript l).hiproto = s.hiproto := rfl
@[simp] theorem State.withScript_htproto (l : List HostOp) : (s.withScript l).htproto = s.htproto := rfl
@[simp] theorem State.withScript_httl (l : List HostOp) : (s.withScript l).httl = s.httl := rfl
@[simp] theorem State.withScript_hgw (l : List HostOp) : (s.withScript l).hgw = s.hgw := rfl
@[simp] theorem State.withScript_enc (l : List HostOp) : (s.withScript l).enc = s.enc := rfl
@[simp] theorem State.withScript_plen (l : List HostOp) : (s.withScript l).plen = s.plen := rfl
@[simp] theorem State.withScript_pb (l : List HostOp) : (s.withScript l).pb = s.pb := rfl
@[simp] theorem State.withScript_err (l : List HostOp) : (s.withScript l).err = s.err := rfl
@[simp] theorem State.withScript_busy (l : List HostOp) : (s.withScript l).busy = s.busy := rfl
@[simp] theorem State.withScript_cmdl (l : List HostOp) : (s.withScript l).cmdl = s.cmdl := rfl
@[simp] theorem State.withScript_epoch (l : List HostOp) : (s.withScript l).epoch = s.epoch := rfl
@[simp] theorem State.withScript_draws (l : List HostOp) : (s.withScript l).draws = s.draws := rfl
@[simp] theorem State.withScript_rng (l : List HostOp) : (s.withScript l).rng = s.rng := rfl
@[simp] theorem State.withScript_sched (l : List HostOp) : (s.withScript l).sched = s.sched := rfl
@[simp] theorem State.withScript_script (l : List HostOp) : (s.withScript l).script = l := rfl
@[simp] theorem State.withScript_reads (l : List HostOp) : (s.withScript l).reads = s.reads := rfl
@[simp] theorem State.withScript_capacity (l : List HostOp) : (s.withScript l).capacity = s.capacity := rfl
@[simp] theorem State.withScript_fpen (l : List HostOp) : (s.withScript l).fpen = s.fpen := rfl
@[simp] theorem State.withScript_tagLen (l : List HostOp) : (s.withScript l).tagLen = s.tagLen := rfl
@[simp] theorem State.withScript_schedule (l : List HostOp) : (s.withScript l).schedule = s.schedule := rfl
@[simp] theorem State.withScript_c12 (l : List HostOp) : (s.withScript l).c12 = s.c12 := rfl
@[simp] theorem State.withScript_iv (l : List HostOp) : (s.withScript l).iv = s.iv := rfl
@[simp] theorem State.withScript_len (l : List HostOp) : (s.withScript l).len = s.len := rfl
@[simp] theorem State.withScript_draw (l : List HostOp) : (s.withScript l).draw = s.draw := rfl
@[simp] theorem State.withScript_grown (l : List HostOp) : (s.withScript l).grown = s.grown := rfl
@[simp] theorem State.withScript_cipherLen (l : List HostOp) : (s.withScript l).cipherLen = s.cipherLen := rfl
@[simp] theorem State.withScript_regionLen (l : List HostOp) : (s.withScript l).regionLen = s.regionLen := rfl
@[simp] theorem State.withScript_byteAt (l : List HostOp) (x : Nat) : (s.withScript l).byteAt x = s.byteAt x := rfl
@[simp] theorem State.withScript_bytes (l : List HostOp) (x n : Nat) : (s.withScript l).bytes x n = s.bytes x n := rfl

/-! ### `withSched` -/

@[simp] theorem State.withSched_pcap (l : List Agent) : (s.withSched l).pcap = s.pcap := rfl
@[simp] theorem State.withSched_cfg (l : List Agent) : (s.withSched l).cfg = s.cfg := rfl
@[simp] theorem State.withSched_hsrc (l : List Agent) : (s.withSched l).hsrc = s.hsrc := rfl
@[simp] theorem State.withSched_hdst (l : List Agent) : (s.withSched l).hdst = s.hdst := rfl
@[simp] theorem State.withSched_hiproto (l : List Agent) : (s.withSched l).hiproto = s.hiproto := rfl
@[simp] theorem State.withSched_htproto (l : List Agent) : (s.withSched l).htproto = s.htproto := rfl
@[simp] theorem State.withSched_httl (l : List Agent) : (s.withSched l).httl = s.httl := rfl
@[simp] theorem State.withSched_hgw (l : List Agent) : (s.withSched l).hgw = s.hgw := rfl
@[simp] theorem State.withSched_enc (l : List Agent) : (s.withSched l).enc = s.enc := rfl
@[simp] theorem State.withSched_plen (l : List Agent) : (s.withSched l).plen = s.plen := rfl
@[simp] theorem State.withSched_pb (l : List Agent) : (s.withSched l).pb = s.pb := rfl
@[simp] theorem State.withSched_err (l : List Agent) : (s.withSched l).err = s.err := rfl
@[simp] theorem State.withSched_busy (l : List Agent) : (s.withSched l).busy = s.busy := rfl
@[simp] theorem State.withSched_cmdl (l : List Agent) : (s.withSched l).cmdl = s.cmdl := rfl
@[simp] theorem State.withSched_epoch (l : List Agent) : (s.withSched l).epoch = s.epoch := rfl
@[simp] theorem State.withSched_draws (l : List Agent) : (s.withSched l).draws = s.draws := rfl
@[simp] theorem State.withSched_rng (l : List Agent) : (s.withSched l).rng = s.rng := rfl
@[simp] theorem State.withSched_sched (l : List Agent) : (s.withSched l).sched = l := rfl
@[simp] theorem State.withSched_script (l : List Agent) : (s.withSched l).script = s.script := rfl
@[simp] theorem State.withSched_reads (l : List Agent) : (s.withSched l).reads = s.reads := rfl
@[simp] theorem State.withSched_capacity (l : List Agent) : (s.withSched l).capacity = s.capacity := rfl
@[simp] theorem State.withSched_fpen (l : List Agent) : (s.withSched l).fpen = s.fpen := rfl
@[simp] theorem State.withSched_tagLen (l : List Agent) : (s.withSched l).tagLen = s.tagLen := rfl
@[simp] theorem State.withSched_schedule (l : List Agent) : (s.withSched l).schedule = s.schedule := rfl
@[simp] theorem State.withSched_c12 (l : List Agent) : (s.withSched l).c12 = s.c12 := rfl
@[simp] theorem State.withSched_iv (l : List Agent) : (s.withSched l).iv = s.iv := rfl
@[simp] theorem State.withSched_len (l : List Agent) : (s.withSched l).len = s.len := rfl
@[simp] theorem State.withSched_draw (l : List Agent) : (s.withSched l).draw = s.draw := rfl
@[simp] theorem State.withSched_grown (l : List Agent) : (s.withSched l).grown = s.grown := rfl
@[simp] theorem State.withSched_cipherLen (l : List Agent) : (s.withSched l).cipherLen = s.cipherLen := rfl
@[simp] theorem State.withSched_regionLen (l : List Agent) : (s.withSched l).regionLen = s.regionLen := rfl
@[simp] theorem State.withSched_byteAt (l : List Agent) (x : Nat) : (s.withSched l).byteAt x = s.byteAt x := rfl
@[simp] theorem State.withSched_bytes (l : List Agent) (x n : Nat) : (s.withSched l).bytes x n = s.bytes x n := rfl

/-! ### `record` -/

@[simp] theorem State.record_pcap (r : HostRead) : (s.record r).pcap = s.pcap := rfl
@[simp] theorem State.record_cfg (r : HostRead) : (s.record r).cfg = s.cfg := rfl
@[simp] theorem State.record_hsrc (r : HostRead) : (s.record r).hsrc = s.hsrc := rfl
@[simp] theorem State.record_hdst (r : HostRead) : (s.record r).hdst = s.hdst := rfl
@[simp] theorem State.record_hiproto (r : HostRead) : (s.record r).hiproto = s.hiproto := rfl
@[simp] theorem State.record_htproto (r : HostRead) : (s.record r).htproto = s.htproto := rfl
@[simp] theorem State.record_httl (r : HostRead) : (s.record r).httl = s.httl := rfl
@[simp] theorem State.record_hgw (r : HostRead) : (s.record r).hgw = s.hgw := rfl
@[simp] theorem State.record_enc (r : HostRead) : (s.record r).enc = s.enc := rfl
@[simp] theorem State.record_plen (r : HostRead) : (s.record r).plen = s.plen := rfl
@[simp] theorem State.record_pb (r : HostRead) : (s.record r).pb = s.pb := rfl
@[simp] theorem State.record_err (r : HostRead) : (s.record r).err = s.err := rfl
@[simp] theorem State.record_busy (r : HostRead) : (s.record r).busy = s.busy := rfl
@[simp] theorem State.record_cmdl (r : HostRead) : (s.record r).cmdl = s.cmdl := rfl
@[simp] theorem State.record_epoch (r : HostRead) : (s.record r).epoch = s.epoch := rfl
@[simp] theorem State.record_draws (r : HostRead) : (s.record r).draws = s.draws := rfl
@[simp] theorem State.record_rng (r : HostRead) : (s.record r).rng = s.rng := rfl
@[simp] theorem State.record_sched (r : HostRead) : (s.record r).sched = s.sched := rfl
@[simp] theorem State.record_script (r : HostRead) : (s.record r).script = s.script := rfl
@[simp] theorem State.record_reads (r : HostRead) : (s.record r).reads = r :: s.reads := rfl
@[simp] theorem State.record_capacity (r : HostRead) : (s.record r).capacity = s.capacity := rfl
@[simp] theorem State.record_fpen (r : HostRead) : (s.record r).fpen = s.fpen := rfl
@[simp] theorem State.record_tagLen (r : HostRead) : (s.record r).tagLen = s.tagLen := rfl
@[simp] theorem State.record_schedule (r : HostRead) : (s.record r).schedule = s.schedule := rfl
@[simp] theorem State.record_c12 (r : HostRead) : (s.record r).c12 = s.c12 := rfl
@[simp] theorem State.record_iv (r : HostRead) : (s.record r).iv = s.iv := rfl
@[simp] theorem State.record_len (r : HostRead) : (s.record r).len = s.len := rfl
@[simp] theorem State.record_draw (r : HostRead) : (s.record r).draw = s.draw := rfl
@[simp] theorem State.record_grown (r : HostRead) : (s.record r).grown = s.grown := rfl
@[simp] theorem State.record_cipherLen (r : HostRead) : (s.record r).cipherLen = s.cipherLen := rfl
@[simp] theorem State.record_regionLen (r : HostRead) : (s.record r).regionLen = s.regionLen := rfl
@[simp] theorem State.record_byteAt (r : HostRead) (x : Nat) : (s.record r).byteAt x = s.byteAt x := rfl
@[simp] theorem State.record_bytes (r : HostRead) (x n : Nat) : (s.record r).bytes x n = s.bytes x n := rfl

/-! ### `setHproto` -/

@[simp] theorem State.setHproto_pcap (v : BitVec 32) : (s.setHproto v).pcap = s.pcap := rfl
@[simp] theorem State.setHproto_cfg (v : BitVec 32) : (s.setHproto v).cfg = s.cfg := rfl
@[simp] theorem State.setHproto_hsrc (v : BitVec 32) : (s.setHproto v).hsrc = s.hsrc := rfl
@[simp] theorem State.setHproto_hdst (v : BitVec 32) : (s.setHproto v).hdst = s.hdst := rfl
@[simp] theorem State.setHproto_hiproto (v : BitVec 32) : (s.setHproto v).hiproto = v.extractLsb' 0 8 := rfl
@[simp] theorem State.setHproto_htproto (v : BitVec 32) : (s.setHproto v).htproto = v.extractLsb' 8 8 := rfl
@[simp] theorem State.setHproto_httl (v : BitVec 32) : (s.setHproto v).httl = v.extractLsb' 16 8 := rfl
@[simp] theorem State.setHproto_hgw (v : BitVec 32) : (s.setHproto v).hgw = v.getLsbD 24 := rfl
@[simp] theorem State.setHproto_enc (v : BitVec 32) : (s.setHproto v).enc = s.enc := rfl
@[simp] theorem State.setHproto_plen (v : BitVec 32) : (s.setHproto v).plen = s.plen := rfl
@[simp] theorem State.setHproto_pb (v : BitVec 32) : (s.setHproto v).pb = s.pb := rfl
@[simp] theorem State.setHproto_err (v : BitVec 32) : (s.setHproto v).err = s.err := rfl
@[simp] theorem State.setHproto_busy (v : BitVec 32) : (s.setHproto v).busy = s.busy := rfl
@[simp] theorem State.setHproto_cmdl (v : BitVec 32) : (s.setHproto v).cmdl = s.cmdl := rfl
@[simp] theorem State.setHproto_epoch (v : BitVec 32) : (s.setHproto v).epoch = s.epoch := rfl
@[simp] theorem State.setHproto_draws (v : BitVec 32) : (s.setHproto v).draws = s.draws := rfl
@[simp] theorem State.setHproto_rng (v : BitVec 32) : (s.setHproto v).rng = s.rng := rfl
@[simp] theorem State.setHproto_sched (v : BitVec 32) : (s.setHproto v).sched = s.sched := rfl
@[simp] theorem State.setHproto_script (v : BitVec 32) : (s.setHproto v).script = s.script := rfl
@[simp] theorem State.setHproto_reads (v : BitVec 32) : (s.setHproto v).reads = s.reads := rfl
@[simp] theorem State.setHproto_capacity (v : BitVec 32) : (s.setHproto v).capacity = s.capacity := rfl
@[simp] theorem State.setHproto_fpen (v : BitVec 32) : (s.setHproto v).fpen = s.fpen := rfl
@[simp] theorem State.setHproto_tagLen (v : BitVec 32) : (s.setHproto v).tagLen = s.tagLen := rfl
@[simp] theorem State.setHproto_schedule (v : BitVec 32) : (s.setHproto v).schedule = s.schedule := rfl
@[simp] theorem State.setHproto_len (v : BitVec 32) : (s.setHproto v).len = s.len := rfl
@[simp] theorem State.setHproto_draw (v : BitVec 32) : (s.setHproto v).draw = s.draw := rfl
@[simp] theorem State.setHproto_grown (v : BitVec 32) : (s.setHproto v).grown = s.grown := rfl
@[simp] theorem State.setHproto_cipherLen (v : BitVec 32) : (s.setHproto v).cipherLen = s.cipherLen := rfl
@[simp] theorem State.setHproto_regionLen (v : BitVec 32) : (s.setHproto v).regionLen = s.regionLen := rfl
@[simp] theorem State.setHproto_byteAt (v : BitVec 32) (x : Nat) : (s.setHproto v).byteAt x = s.byteAt x := rfl
@[simp] theorem State.setHproto_bytes (v : BitVec 32) (x n : Nat) : (s.setHproto v).bytes x n = s.bytes x n := rfl

/-! ### `setHsrc` -/

@[simp] theorem State.setHsrc_pcap (v : BitVec 32) : (s.setHsrc v).pcap = s.pcap := rfl
@[simp] theorem State.setHsrc_cfg (v : BitVec 32) : (s.setHsrc v).cfg = s.cfg := rfl
@[simp] theorem State.setHsrc_hsrc (v : BitVec 32) : (s.setHsrc v).hsrc = v := rfl
@[simp] theorem State.setHsrc_hdst (v : BitVec 32) : (s.setHsrc v).hdst = s.hdst := rfl
@[simp] theorem State.setHsrc_hiproto (v : BitVec 32) : (s.setHsrc v).hiproto = s.hiproto := rfl
@[simp] theorem State.setHsrc_htproto (v : BitVec 32) : (s.setHsrc v).htproto = s.htproto := rfl
@[simp] theorem State.setHsrc_httl (v : BitVec 32) : (s.setHsrc v).httl = s.httl := rfl
@[simp] theorem State.setHsrc_hgw (v : BitVec 32) : (s.setHsrc v).hgw = s.hgw := rfl
@[simp] theorem State.setHsrc_enc (v : BitVec 32) : (s.setHsrc v).enc = s.enc := rfl
@[simp] theorem State.setHsrc_plen (v : BitVec 32) : (s.setHsrc v).plen = s.plen := rfl
@[simp] theorem State.setHsrc_pb (v : BitVec 32) : (s.setHsrc v).pb = s.pb := rfl
@[simp] theorem State.setHsrc_err (v : BitVec 32) : (s.setHsrc v).err = s.err := rfl
@[simp] theorem State.setHsrc_busy (v : BitVec 32) : (s.setHsrc v).busy = s.busy := rfl
@[simp] theorem State.setHsrc_cmdl (v : BitVec 32) : (s.setHsrc v).cmdl = s.cmdl := rfl
@[simp] theorem State.setHsrc_epoch (v : BitVec 32) : (s.setHsrc v).epoch = s.epoch := rfl
@[simp] theorem State.setHsrc_draws (v : BitVec 32) : (s.setHsrc v).draws = s.draws := rfl
@[simp] theorem State.setHsrc_rng (v : BitVec 32) : (s.setHsrc v).rng = s.rng := rfl
@[simp] theorem State.setHsrc_sched (v : BitVec 32) : (s.setHsrc v).sched = s.sched := rfl
@[simp] theorem State.setHsrc_script (v : BitVec 32) : (s.setHsrc v).script = s.script := rfl
@[simp] theorem State.setHsrc_reads (v : BitVec 32) : (s.setHsrc v).reads = s.reads := rfl
@[simp] theorem State.setHsrc_capacity (v : BitVec 32) : (s.setHsrc v).capacity = s.capacity := rfl
@[simp] theorem State.setHsrc_fpen (v : BitVec 32) : (s.setHsrc v).fpen = s.fpen := rfl
@[simp] theorem State.setHsrc_tagLen (v : BitVec 32) : (s.setHsrc v).tagLen = s.tagLen := rfl
@[simp] theorem State.setHsrc_schedule (v : BitVec 32) : (s.setHsrc v).schedule = s.schedule := rfl
@[simp] theorem State.setHsrc_len (v : BitVec 32) : (s.setHsrc v).len = s.len := rfl
@[simp] theorem State.setHsrc_draw (v : BitVec 32) : (s.setHsrc v).draw = s.draw := rfl
@[simp] theorem State.setHsrc_grown (v : BitVec 32) : (s.setHsrc v).grown = s.grown := rfl
@[simp] theorem State.setHsrc_cipherLen (v : BitVec 32) : (s.setHsrc v).cipherLen = s.cipherLen := rfl
@[simp] theorem State.setHsrc_regionLen (v : BitVec 32) : (s.setHsrc v).regionLen = s.regionLen := rfl
@[simp] theorem State.setHsrc_byteAt (v : BitVec 32) (x : Nat) : (s.setHsrc v).byteAt x = s.byteAt x := rfl
@[simp] theorem State.setHsrc_bytes (v : BitVec 32) (x n : Nat) : (s.setHsrc v).bytes x n = s.bytes x n := rfl

/-! ### `setHdst` -/

@[simp] theorem State.setHdst_pcap (v : BitVec 32) : (s.setHdst v).pcap = s.pcap := rfl
@[simp] theorem State.setHdst_cfg (v : BitVec 32) : (s.setHdst v).cfg = s.cfg := rfl
@[simp] theorem State.setHdst_hsrc (v : BitVec 32) : (s.setHdst v).hsrc = s.hsrc := rfl
@[simp] theorem State.setHdst_hdst (v : BitVec 32) : (s.setHdst v).hdst = v := rfl
@[simp] theorem State.setHdst_hiproto (v : BitVec 32) : (s.setHdst v).hiproto = s.hiproto := rfl
@[simp] theorem State.setHdst_htproto (v : BitVec 32) : (s.setHdst v).htproto = s.htproto := rfl
@[simp] theorem State.setHdst_httl (v : BitVec 32) : (s.setHdst v).httl = s.httl := rfl
@[simp] theorem State.setHdst_hgw (v : BitVec 32) : (s.setHdst v).hgw = s.hgw := rfl
@[simp] theorem State.setHdst_enc (v : BitVec 32) : (s.setHdst v).enc = s.enc := rfl
@[simp] theorem State.setHdst_plen (v : BitVec 32) : (s.setHdst v).plen = s.plen := rfl
@[simp] theorem State.setHdst_pb (v : BitVec 32) : (s.setHdst v).pb = s.pb := rfl
@[simp] theorem State.setHdst_err (v : BitVec 32) : (s.setHdst v).err = s.err := rfl
@[simp] theorem State.setHdst_busy (v : BitVec 32) : (s.setHdst v).busy = s.busy := rfl
@[simp] theorem State.setHdst_cmdl (v : BitVec 32) : (s.setHdst v).cmdl = s.cmdl := rfl
@[simp] theorem State.setHdst_epoch (v : BitVec 32) : (s.setHdst v).epoch = s.epoch := rfl
@[simp] theorem State.setHdst_draws (v : BitVec 32) : (s.setHdst v).draws = s.draws := rfl
@[simp] theorem State.setHdst_rng (v : BitVec 32) : (s.setHdst v).rng = s.rng := rfl
@[simp] theorem State.setHdst_sched (v : BitVec 32) : (s.setHdst v).sched = s.sched := rfl
@[simp] theorem State.setHdst_script (v : BitVec 32) : (s.setHdst v).script = s.script := rfl
@[simp] theorem State.setHdst_reads (v : BitVec 32) : (s.setHdst v).reads = s.reads := rfl
@[simp] theorem State.setHdst_capacity (v : BitVec 32) : (s.setHdst v).capacity = s.capacity := rfl
@[simp] theorem State.setHdst_fpen (v : BitVec 32) : (s.setHdst v).fpen = s.fpen := rfl
@[simp] theorem State.setHdst_tagLen (v : BitVec 32) : (s.setHdst v).tagLen = s.tagLen := rfl
@[simp] theorem State.setHdst_schedule (v : BitVec 32) : (s.setHdst v).schedule = s.schedule := rfl
@[simp] theorem State.setHdst_len (v : BitVec 32) : (s.setHdst v).len = s.len := rfl
@[simp] theorem State.setHdst_draw (v : BitVec 32) : (s.setHdst v).draw = s.draw := rfl
@[simp] theorem State.setHdst_grown (v : BitVec 32) : (s.setHdst v).grown = s.grown := rfl
@[simp] theorem State.setHdst_cipherLen (v : BitVec 32) : (s.setHdst v).cipherLen = s.cipherLen := rfl
@[simp] theorem State.setHdst_regionLen (v : BitVec 32) : (s.setHdst v).regionLen = s.regionLen := rfl
@[simp] theorem State.setHdst_byteAt (v : BitVec 32) (x : Nat) : (s.setHdst v).byteAt x = s.byteAt x := rfl
@[simp] theorem State.setHdst_bytes (v : BitVec 32) (x n : Nat) : (s.setHdst v).bytes x n = s.bytes x n := rfl

end Sys2Proof.Machine
end

