-- ==== Sys2Proof/Laws/Ops.lean ====
section
/-!
SUPPORT. What the named operations over the state do: the parts of a command and their sequence, MemRead and MemWrite, the
forgetting of bytes, and the range of PLEN.
-/

namespace Sys2Proof.Machine

/-! ### Parts of a command -/

section
variable {α β : Type}

@[simp] theorem Part.ok_andThen (a : α) (k : α → Part β) : (Part.ok a).andThen k = k a := rfl

@[simp] theorem Part.raised_andThen (e : Err) (k : α → Part β) : (Part.raised e).andThen k = .raised e := rfl

@[simp] theorem Part.fault_andThen (f : Fault) (k : α → Part β) : (Part.fault f).andThen k = .fault f := rfl

@[simp] theorem Part.refused_andThen (r : Refusal) (k : α → Part β) : (Part.refused r).andThen k = .refused r := rfl

/-- A sequence of two parts has a value when both have. -/
theorem Part.andThen_eq_ok {p : Part α} {k : α → Part β} {b : β} :
    p.andThen k = .ok b ↔ ∃ a, p = .ok a ∧ k a = .ok b := by
  cases p <;> simp

/-- A sequence of two parts raises an error when the first does, or has a value with which the second does. -/
theorem Part.andThen_eq_raised {p : Part α} {k : α → Part β} {e : Err} :
    p.andThen k = .raised e ↔ p = .raised e ∨ ∃ a, p = .ok a ∧ k a = .raised e := by
  cases p <;> simp

end

@[simp] theorem Part.ok_outcome (s : State) (failed : Err → State) : (Part.ok s).outcome failed = .next s := rfl

@[simp] theorem Part.raised_outcome (e : Err) (failed : Err → State) :
    (Part.raised e).outcome failed = .next (failed e) := rfl

@[simp] theorem Part.fault_outcome (f : Fault) (failed : Err → State) : (Part.fault f).outcome failed = .fault f := rfl

@[simp] theorem Part.refused_outcome (r : Refusal) (failed : Err → State) :
    (Part.refused r).outcome failed = .refused r := rfl

/-- What a command can answer: the state of its last part, or the state its failure rule leaves. -/
theorem Part.outcome_eq_next {p : Part State} {failed : Err → State} {t : State} :
    p.outcome failed = .next t ↔ p = .ok t ∨ ∃ e, p = .raised e ∧ t = failed e := by
  cases p <;> simp [eq_comm]

/-! ### Reading bytes -/

@[simp] theorem State.bytes_length (s : State) (a n : Nat) : (s.bytes a n).length = n := by simp [State.bytes]

theorem State.bytes_getD (s : State) (a : Nat) {n i : Nat} (h : i < n) (d : Byte) :
    (s.bytes a n).getD i d = s.byteAt (a + i) := by
  simp [State.bytes, h]

/-- Two byte ranges are equal when the bytes are equal one by one. -/
theorem State.bytes_eq_iff {s t : State} {a b n : Nat} :
    s.bytes a n = t.bytes b n ↔ ∀ i, i < n → s.byteAt (a + i) = t.byteAt (b + i) := by
  simp [State.bytes]

/-- A byte range is a given sequence when it has its length and its bytes. -/
theorem State.bytes_eq_of {s : State} {a : Nat} {v : List Byte}
    (h : ∀ i, i < v.length → s.byteAt (a + i) = v.getD i 0#8) : s.bytes a v.length = v := by
  apply List.ext_getElem (by simp)
  intro i h1 h2
  have := h i h2
  simpa [State.bytes, h2] using this

theorem State.bytes_append (s : State) (a m n : Nat) : s.bytes a (m + n) = s.bytes a m ++ s.bytes (a + m) n := by
  simp [State.bytes, List.range_add, Nat.add_assoc]

theorem State.memRead_ok {s : State} {a n : Nat} (h : a + n ≤ s.capacity) : s.memRead a n = .ok (s.bytes a n) := by
  simp [State.memRead, h]

/-- What `MemRead` can answer. -/
theorem State.memRead_eq_ok {s : State} {a n : Nat} {v : List Byte} :
    s.memRead a n = .ok v ↔ a + n ≤ s.capacity ∧ v = s.bytes a n := by
  unfold State.memRead
  split <;> simp [*, eq_comm]

/-! ### Writing bytes -/

theorem State.memWrite_ok {s : State} {a n : Nat} {v : List Byte} (h : a + n ≤ s.capacity) (hv : v.length = n) :
    s.memWrite a n v = .ok (s.setPb (Memory.setBytes s.pb a v)) := by
  simp [State.memWrite, h, hv]

/-- What `MemWrite` can answer. -/
theorem State.memWrite_eq_ok {s t : State} {a n : Nat} {v : List Byte} :
    s.memWrite a n v = .ok t ↔ a + n ≤ s.capacity ∧ v.length = n ∧ t = s.setPb (Memory.setBytes s.pb a v) := by
  unfold State.memWrite
  split
  · split
    · simp [*, eq_comm]
    · next h => simp [h]
  · simp [*]

/-- `MemWrite` raises no error of its own. -/
theorem State.memWrite_ne_raised {s : State} {a n : Nat} {v : List Byte} {e : Err} : s.memWrite a n v ≠ .raised e := by
  unfold State.memWrite
  split
  · split <;> simp
  · simp

/-- A byte after the sequence `v` has been stored from address `a` on. -/
theorem State.byteAt_setBytes (s : State) (a : Nat) (v : List Byte) (x : Nat) :
    (s.setPb (Memory.setBytes s.pb a v)).byteAt x =
      if a ≤ x ∧ x < a + v.length then v.getD (x - a) 0#8 else s.byteAt x := by
  simp only [State.byteAt, State.setPb_pb, State.setPb_epoch, Memory.get?_setBytes]
  by_cases h : a ≤ x ∧ x < a + v.length <;> simp [h]

theorem State.byteAt_set_self (s : State) (a : Nat) (b : Byte) : (s.setPb (Memory.set s.pb a b)).byteAt a = b := by
  simp [State.byteAt]

theorem State.byteAt_set_other (s : State) {a x : Nat} (b : Byte) (h : x ≠ a) :
    (s.setPb (Memory.set s.pb a b)).byteAt x = s.byteAt x := by
  simp [State.byteAt, Memory.get?_set_other _ _ h]

/-- A listed byte is its listed value. -/
theorem State.byteAt_of_get? {s : State} {x : Nat} {b : Byte} (h : Memory.get? s.pb x = some b) : s.byteAt x = b := by
  simp [State.byteAt, h]

/-- After a sequence has been stored from address 0 and the bytes behind it forgotten, the payload is the sequence. -/
theorem State.bytes_setBytes_forget (s : State) (v : List Byte) {k n : Nat} (hk : k ≤ v.length) (hn : k ≤ n) :
    ((s.setPb (Memory.setBytes s.pb 0 v)).forgetFrom n).bytes 0 k = v.take k := by
  have hl : (v.take k).length = k := by simp [hk]
  conv => lhs; rw [← hl]
  apply State.bytes_eq_of
  intro i hi
  rw [hl] at hi
  apply State.byteAt_of_get?
  simp [Memory.get?_keepBelow, Memory.get?_setBytes, show i < n by omega, show i < v.length by omega, hi]

/-! ### PLEN -/

theorem State.len_lt (s : State) : s.len < 65536 := s.plen.isLt

theorem State.capacity_lt (s : State) : s.capacity < 65536 := s.pcap.isLt

/-- PLEN holds any length up to the capacity exactly. -/
theorem State.setPlen_len {s : State} {n : Nat} (h : n ≤ s.capacity) : (s.setPlen n).len = n := by
  have := s.capacity_lt
  simp [State.len]
  omega

/-- The unspecified PLEN of a failed ENCRYPT is at most the capacity (R210). -/
theorem State.spoil_len_le (s : State) : s.spoil.len ≤ s.capacity := by
  have h1 := s.capacity_lt
  have h2 : Config.freeLength (s.epoch + 1) % (s.capacity + 1) < s.capacity + 1 := Nat.mod_lt _ (by omega)
  simp only [State.len, State.spoil_plen, BitVec.toNat_ofNat]
  omega

end Sys2Proof.Machine
end

