-- ==== Sys2Proof/Laws/Codec.lean ====
section
/-!
SUPPORT. What the operations of the secret-body codec can answer.
-/

namespace Sys2Proof.Machine

/-- A view is built when the encryption region is not empty (R111). -/
theorem newView_ok {n : Nat} {tp : Bool} (h : (if tp then 12 else 0) < n) : newView n tp = .ok ⟨n, tp⟩ := by
  cases tp
  · simp only [Bool.false_eq_true, if_false] at h
    simp [newView, View.elen, Nat.ne_of_gt h]
  · simp only [if_true] at h
    simp [newView, View.elen, Nat.not_lt.mpr (Nat.le_of_lt h), Nat.sub_eq_zero_iff_le, Nat.not_le.mpr h]

/-- What `NewView` can answer with a value (R111). -/
theorem newView_eq_ok {n : Nat} {tp : Bool} {v : View} :
    newView n tp = .ok v ↔ (if tp then 12 else 0) < n ∧ v = ⟨n, tp⟩ := by
  by_cases h : (if tp then 12 else 0) < n
  · simp [newView_ok h, h, eq_comm]
  · simp only [h, false_and, iff_false]
    unfold newView
    split
    · simp
    · rw [if_pos]
      · simp
      · cases tp <;> simp_all [View.elen]

theorem setRandomNonce_ok {v : View} {x : BitVec 32} {s : State} (h4 : 4 ≤ v.elen) (hc : v.elen ≤ s.capacity) :
    setRandomNonce v x s = .ok (s.setPb (Memory.setBytes s.pb (v.elen - 4) (be32 x))) := by
  rw [setRandomNonce, if_neg (by omega), State.memWrite_ok (by omega) (be32_length x)]

theorem getTag_ok {v : View} {s : State} (htp : v.tp = true) (h : 12 ≤ v.vlen) (hc : v.vlen ≤ s.capacity) :
    getTag v s = .ok (s.bytes (v.vlen - 12) 12) := by
  rw [getTag, if_pos htp, State.memRead_ok (by omega)]

theorem setTag_ok {v : View} {t : List Byte} {s : State} (htp : v.tp = true) (h : 12 ≤ v.vlen)
    (hc : v.vlen ≤ s.capacity) (ht : t.length = 12) :
    setTag v t s = .ok (s.setPb (Memory.setBytes s.pb (v.vlen - 12) t)) := by
  rw [setTag, if_pos htp, State.memWrite_ok (by omega) ht]

end Sys2Proof.Machine
end

