-- ==== Sys2Proof/Laws/Context.lean ====
section
/-!
SUPPORT. The context vector and the tag: lengths.
-/

namespace Sys2Proof.Machine

/-- A fingerprint has twelve bytes or more (R8, R95). -/
theorem fingerprint_length (f : Fingerprint) (c d : List Byte) : 12 ≤ (fingerprint f c d).length := by
  cases f with
  | keyed id => simp [fingerprint]
  | fpTest => simp [fingerprint, fpTestBytes]

@[simp] theorem ctxPrefix_length (src dst : BitVec 32) (ip tp : Byte) (gw : Bool) (ttl : Byte) :
    (ctxPrefix src dst ip tp gw ttl).length = 12 := rfl

@[simp] theorem State.c12_length (s : State) : s.c12.length = 12 := rfl

@[simp] theorem salt4_length (f : Fingerprint) (c : List Byte) : (salt4 f c).length = 4 := by
  have := fingerprint_length f c []
  simp only [salt4, List.length_take]
  omega

@[simp] theorem tag12_length (f : Fingerprint) (c d : List Byte) : (tag12 f c d).length = 12 := by
  have := fingerprint_length f c d
  simp only [tag12, List.length_take]
  omega

theorem ctxVector_length (fp : Option Fingerprint) {c : List Byte} (h : c.length = 12) :
    (ctxVector fp c).length = 16 := by
  cases fp <;> simp [ctxVector, h]

/-- The IV block is the context vector (R92, R160). -/
theorem State.blockBytes_iv (s : State) : blockBytes s.iv = ctxVector s.cfg.fp s.c12 :=
  blockBytes_toBlock (ctxVector_length _ s.c12_length)

@[simp] theorem tagEq_eq_true {a b : List Byte} : tagEq a b = true ↔ a = b := by simp [tagEq]

end Sys2Proof.Machine
end

