-- ==== Sys2Proof/Laws/Encrypt.lean ====
section
/-!
SUPPORT. Everything ENCRYPT can answer, said once: the growth that does not fit, the two later capacity failures, and the
success with and without a fingerprint function.
-/

namespace Sys2Proof.Machine

theorem State.tagLen_none {s : State} (h : s.cfg.fp = none) : s.tagLen = 0 := by
  simp [State.tagLen, State.fpen, h]

theorem State.tagLen_some {s : State} {f : Fingerprint} (h : s.cfg.fp = some f) : s.tagLen = 12 := by
  simp [State.tagLen, State.fpen, h]

theorem State.sealed_length (s : State) : s.sealed.length = s.cipherLen := by
  simp [State.sealed, cbcEncPad_length, State.cipherLen]

/-- The capacity condition in the terms of ENCRYPT's own tests (R201). -/
theorem State.fits_iff (s : State) : s.Fits ↔ s.cipherLen + s.tagLen ≤ s.capacity := by
  unfold State.Fits roundUp16 State.cipherLen
  omega

/-- A state that fits also passes the growth test (R201). -/
theorem State.grown_le_of_fits {s : State} (h : s.Fits) : s.grown ≤ s.capacity := by
  rw [State.fits_iff] at h
  unfold State.cipherLen at h
  unfold State.grown
  omega

/-- Once the nonce stands behind the payload, the first `len + 4` bytes are the payload and the nonce (R203, R204). -/
theorem bytes_with_nonce (s : State) (v : List Byte) (hv : v.length = 4) :
    (s.setPb (Memory.setBytes s.pb s.len v)).bytes 0 (s.len + 4) = s.bytes 0 s.len ++ v := by
  have hl : (s.bytes 0 s.len ++ v).length = s.len + 4 := by simp [hv]
  rw [← hl]
  apply State.bytes_eq_of
  intro i hi
  rw [hl] at hi
  rw [State.byteAt_setBytes]
  by_cases h : i < s.len
  · rw [if_neg (by omega), List.getD_append _ _ _ _ (by simpa using h), State.bytes_getD _ _ h]
  · rw [if_pos (by omega), List.getD_append_right _ _ _ _ (by simpa using h)]
    simp

/-- The payload memory once the nonce and then the ciphertext have been stored (R200). -/
def sealedMemory (s : State) : Memory :=
  Memory.setBytes (Memory.setBytes s.pb s.len (be32 s.draw)) 0 s.sealed

/-- Everything the steps of ENCRYPT after the growth can answer (R200, R205). -/
theorem encryptSteps_eq {s : State} (hg : s.grown ≤ s.capacity) :
    encryptSteps s =
      if s.capacity < s.cipherLen then .raised .encryptFailure
      else storeTag (s.afterDraw.setPb (sealedMemory s)) s.cipherLen := by
  have hel : View.elen ⟨s.grown, s.fpen⟩ = s.len + 4 := by
    unfold View.elen State.grown State.tagLen
    cases s.fpen <;> simp
  have hview : newView s.grown s.fpen = .ok ⟨s.grown, s.fpen⟩ := by
    apply newView_ok
    unfold State.grown State.tagLen
    cases s.fpen <;> simp
  have hc : s.len + 4 ≤ s.capacity := by
    unfold State.grown at hg
    omega
  rw [encryptSteps, hview, Part.ok_andThen, setRandomNonce_ok (by omega) (by rw [hel]; simpa using hc), Part.ok_andThen]
  split
  · rfl
  next hM =>
  have hread : (s.afterDraw.setPb (Memory.setBytes s.afterDraw.pb (s.len + 4 - 4) (be32 s.draw))).bytes 0 (s.len + 4) =
      s.bytes 0 s.len ++ be32 s.draw := by
    simpa using bytes_with_nonce s.afterDraw (be32 s.draw) rfl
  rw [hel, State.memRead_ok (by simpa using hc), Part.ok_andThen, hread,
    State.memWrite_ok (by simp; omega) (by simpa [State.sealed] using s.sealed_length), Part.ok_andThen]
  rfl

/-- Everything step 5 can answer over a ciphertext that stands in memory (R205 case c, R206). -/
theorem storeTag_eq {s : State} {m : Nat} (h0 : 0 < m) :
    storeTag s m =
      match s.cfg.fp with
      | none => .ok (finishEncrypt s m)
      | some f =>
        if s.capacity < m + 12 then .raised .lengthExceedsCapacity
        else .ok (finishEncrypt (s.setPb (Memory.setBytes s.pb m (tag12 f s.c12 (s.bytes 0 m)))) (m + 12)) := by
  unfold storeTag
  cases s.cfg.fp with
  | none => rfl
  | some f =>
    simp only
    split
    · rfl
    · rw [State.memRead_ok (by omega), Part.ok_andThen, newView_ok (by simpa using h0), Part.ok_andThen,
        setTag_ok rfl (by simp) (by simpa using by omega) (by simp), Part.ok_andThen]
      simp

/-- The ciphertext stands in memory once it has been stored. -/
theorem bytes_sealedMemory (s : State) : (s.afterDraw.setPb (sealedMemory s)).bytes 0 s.cipherLen = s.sealed := by
  rw [← State.sealed_length]
  apply State.bytes_eq_of
  intro i hi
  apply State.byteAt_of_get?
  simp [sealedMemory, Memory.get?_setBytes, hi]

/-- The state a successful ENCRYPT leaves (R200, R206, R207, R211). -/
def encrypted (s : State) : State :=
  match s.cfg.fp with
  | none => finishEncrypt (s.afterDraw.setPb (sealedMemory s)) s.cipherLen
  | some f =>
    finishEncrypt (s.afterDraw.setPb (Memory.setBytes (sealedMemory s) s.cipherLen (tag12 f s.c12 s.sealed)))
      (s.cipherLen + 12)

/-- Everything ENCRYPT can answer (R200, R205, R210). -/
theorem execEncrypt_eq (s : State) :
    execEncrypt s =
      if s.capacity < s.grown then .next (s.afterDraw.complete .lengthExceedsCapacity)
      else if s.capacity < s.cipherLen then .next (s.afterDraw.spoil.complete .encryptFailure)
      else if s.capacity < s.cipherLen + s.tagLen then .next (s.afterDraw.spoil.complete .lengthExceedsCapacity)
      else .next (encrypted s) := by
  unfold execEncrypt
  split
  · rfl
  next hg =>
  rw [encryptSteps_eq (by omega)]
  split
  · rfl
  next hM =>
  have hpos : 0 < s.cipherLen := by unfold State.cipherLen; omega
  rw [storeTag_eq hpos]
  simp only [State.setPb_cfg, State.afterDraw_cfg, bytes_sealedMemory, State.setPb_capacity, State.afterDraw_capacity]
  unfold encrypted
  cases hfp : s.cfg.fp with
  | none => simp [State.tagLen_none hfp, hM]
  | some f =>
    rw [State.tagLen_some hfp]
    by_cases hc : s.capacity < s.cipherLen + 12
    · simp only [hc, if_true, Part.raised_outcome]
    · simp only [hc, if_false, Part.ok_outcome]
      rfl

theorem execEncrypt_of_fits {s : State} (h : s.Fits) : execEncrypt s = .next (encrypted s) := by
  have h1 := State.grown_le_of_fits h
  have h2 := s.fits_iff.mp h
  rw [execEncrypt_eq, if_neg (by omega), if_neg (by omega), if_neg (by omega)]

/-- What a successful ENCRYPT leaves: the ciphertext, its tag behind it, their length, the flags, one draw taken, and
every register it does not write. -/
theorem encrypted_spec {s : State} (h : s.Fits) :
    (encrypted s).len = s.cipherLen + s.tagLen ∧ (encrypted s).bytes 0 s.cipherLen = s.sealed ∧
      (∀ f, s.cfg.fp = some f → (encrypted s).bytes s.cipherLen 12 = tag12 f s.c12 s.sealed) ∧
      (encrypted s).err = .success ∧ (encrypted s).enc = true ∧ (encrypted s).busy = false ∧
      (encrypted s).rng = s.rng.tail ∧ (encrypted s).draws = s.draws + 1 ∧ SameOutside s (encrypted s) := by
  have h2 := s.fits_iff.mp h
  have hcl := s.capacity_lt
  unfold encrypted
  cases hfp : s.cfg.fp with
  | none =>
    rw [State.tagLen_none hfp] at h2 ⊢
    refine ⟨?_, ?_, by simp, rfl, rfl, rfl, rfl, rfl, by simp [SameOutside, finishEncrypt]⟩
    · simp [State.len, finishEncrypt]
      omega
    · rw [← State.sealed_length]
      apply State.bytes_eq_of
      intro i hi
      rw [State.sealed_length] at hi
      apply State.byteAt_of_get?
      simp [finishEncrypt, Memory.get?_keepBelow, sealedMemory, Memory.get?_setBytes, State.sealed_length, hi]
  | some f =>
    rw [State.tagLen_some hfp] at h2 ⊢
    refine ⟨?_, ?_, ?_, rfl, rfl, rfl, rfl, rfl, by simp [SameOutside, finishEncrypt]⟩
    · simp [State.len, finishEncrypt]
      omega
    · rw [← State.sealed_length]
      apply State.bytes_eq_of
      intro i hi
      rw [State.sealed_length] at hi
      apply State.byteAt_of_get?
      simp [finishEncrypt, Memory.get?_keepBelow, sealedMemory, Memory.get?_setBytes, State.sealed_length, hi,
        show i < s.cipherLen + 12 by omega, show ¬ s.cipherLen ≤ i by omega]
    · intro g hg
      cases hg
      have hl : (tag12 f s.c12 s.sealed).length = 12 := by simp
      conv_lhs => rw [← hl]
      apply State.bytes_eq_of
      intro i hi
      rw [hl] at hi
      apply State.byteAt_of_get?
      simp [finishEncrypt, Memory.get?_keepBelow, Memory.get?_setBytes, hi]

/-- Everything an ENCRYPT that completes can have done: reported that the growth does not fit, left a later capacity
failure behind, or sealed a payload that fits (R205, R210, R200). -/
theorem execEncrypt_next {s t : State} (h : execEncrypt s = .next t) :
    (s.capacity < s.grown ∧ t = s.afterDraw.complete .lengthExceedsCapacity) ∨
      (s.grown ≤ s.capacity ∧ ¬ s.Fits ∧ ∃ e, e ≠ .success ∧ t = s.afterDraw.spoil.complete e) ∨
      (s.Fits ∧ t = encrypted s) := by
  by_cases hf : s.Fits
  · rw [execEncrypt_of_fits hf] at h
    exact .inr (.inr ⟨hf, (Host.Outcome.next.inj h).symm⟩)
  rw [execEncrypt_eq] at h
  by_cases hg : s.capacity < s.grown
  · rw [if_pos hg] at h
    exact .inl ⟨hg, (Host.Outcome.next.inj h).symm⟩
  rw [if_neg hg] at h
  refine .inr (.inl ⟨by omega, hf, ?_⟩)
  rw [State.fits_iff] at hf
  by_cases hc : s.capacity < s.cipherLen
  · rw [if_pos hc] at h
    exact ⟨_, by simp, (Host.Outcome.next.inj h).symm⟩
  · rw [if_neg hc, if_pos (by omega)] at h
    exact ⟨_, by simp, (Host.Outcome.next.inj h).symm⟩

/-- ENCRYPT completes from every state. -/
theorem execEncrypt_completes (s : State) : ∃ t, execEncrypt s = .next t := by
  rw [execEncrypt_eq]
  split
  · exact ⟨_, rfl⟩
  split
  · exact ⟨_, rfl⟩
  split
  · exact ⟨_, rfl⟩
  · exact ⟨_, rfl⟩

end Sys2Proof.Machine
end

