-- ==== Sys2Proof/Laws/Decrypt.lean ====
section
/-!
SUPPORT. Everything DECRYPT can answer, said once for a payload inside the buffer.
-/

namespace Sys2Proof.Machine

theorem State.tagLen_le (s : State) : s.tagLen ≤ 12 := by
  unfold State.tagLen
  split <;> omega

/-- What step 4 answers when the payload is inside the buffer (R184). -/
theorem checkTag_eq {s : State} (h16 : 16 ≤ s.len) (hc : s.len ≤ s.capacity) :
    checkTag s ⟨s.len, s.fpen⟩ s.region =
      match s.cfg.fp with
      | none => .ok ()
      | some f => if s.storedTag = tag12 f s.c12 s.region then .ok () else .raised .integrityFailure := by
  unfold checkTag
  cases hfp : s.cfg.fp with
  | none => rfl
  | some f =>
    have hen : s.fpen = true := by simp [State.fpen, hfp]
    have hst : s.storedTag = s.bytes (s.len - 12) 12 := by
      simp [State.storedTag, State.regionLen, State.tagLen_some hfp]
    simp only
    rw [getTag_ok hen (by simpa using by omega) (by simpa using hc), Part.ok_andThen]
    simp only [tagEq_eq_true, hst, eq_comm (a := tag12 f s.c12 s.region)]

/-- What storing a payload that fits answers (R186). -/
theorem storePayload_ok {s : State} {m : List Byte} (h : m.length ≤ s.capacity) :
    storePayload s m =
      .ok (((((s.setPb (Memory.setBytes s.pb 0 m)).setPlen m.length).forgetFrom m.length).setEnc false).complete
        .success) := by
  rw [storePayload, State.memWrite_ok (by omega) rfl, Part.ok_andThen]

/-- The state a successful DECRYPT leaves, `m` being the payload (R186, R187). -/
def decrypted (s : State) (m : List Byte) : State :=
  ((((s.setPb (Memory.setBytes s.pb 0 m)).setPlen m.length).forgetFrom m.length).setEnc false).complete .success

/-- What steps 5 and 6 answer (R185, R186). -/
theorem openBody_eq_raised_or_ok (s : State) (ct : List Byte) :
    openBody s ct = .raised .decryptFailure ∨
      ∃ r, cbcDecUnpad s.schedule s.iv ct = some r ∧ 4 ≤ r.length ∧ openBody s ct = .ok (r.take (r.length - 4)) := by
  unfold openBody
  cases h : cbcDecUnpad s.schedule s.iv ct with
  | none => exact .inl rfl
  | some r =>
    by_cases h4 : r.length < 4
    · simp [h4]
    · exact .inr ⟨r, rfl, by omega, by simp [h4]⟩

/-- DECRYPT of a packet that is not flagged (R181). -/
theorem execDecrypt_of_unflagged {s : State} (h : s.enc = false) : execDecrypt s = .next (s.complete .notEncrypted) := by
  simp [execDecrypt, decryptSteps, h]

/-- DECRYPT of a payload that is too short (R182). -/
theorem execDecrypt_of_short {s : State} (h : s.enc = true) (hl : s.len < 16) :
    execDecrypt s = .next (s.complete .malformedPacket) := by
  simp [execDecrypt, decryptSteps, h, hl]

/-- Everything DECRYPT can answer about a flagged payload of sixteen bytes or more inside the buffer (R180). -/
theorem execDecrypt_eq {s : State} (he : s.enc = true) (h16 : 16 ≤ s.len) (hc : s.len ≤ s.capacity) :
    execDecrypt s =
      ((checkTag s ⟨s.len, s.fpen⟩ s.region).andThen fun _ => (openBody s s.region).andThen fun m =>
        storePayload s m).outcome fun e => s.complete e := by
  have hview : newView s.len s.fpen = .ok ⟨s.len, s.fpen⟩ := newView_ok (by split <;> omega)
  have hel : View.elen ⟨s.len, s.fpen⟩ = s.regionLen := by
    unfold View.elen State.regionLen State.tagLen
    cases s.fpen <;> simp
  have hle : s.regionLen ≤ s.capacity := by unfold State.regionLen; omega
  rw [execDecrypt, decryptSteps, if_neg (by simp [he]), if_neg (by omega), hview, Part.ok_andThen, encryptionRegion,
    hel, State.memRead_ok (by omega), Part.ok_andThen]
  rfl

/-- A payload whose tag does not match is refused before it is decrypted (R184). -/
theorem execDecrypt_of_bad_tag {s : State} (he : s.enc = true) (h16 : 16 ≤ s.len) (hc : s.len ≤ s.capacity)
    (ht : ¬ s.TagMatches) : execDecrypt s = .next (s.complete .integrityFailure) := by
  rw [execDecrypt_eq he h16 hc, checkTag_eq h16 hc]
  unfold State.TagMatches at ht
  cases hfp : s.cfg.fp with
  | none => simp [hfp] at ht
  | some f =>
    simp only [hfp, Option.some.injEq, forall_eq'] at ht
    simp [ht]

/-- A payload whose tag matches goes on to steps 5 and 6 (R185, R186). -/
theorem execDecrypt_of_good_tag {s : State} (he : s.enc = true) (h16 : 16 ≤ s.len) (hc : s.len ≤ s.capacity)
    (ht : s.TagMatches) :
    execDecrypt s = ((openBody s s.region).andThen fun m => storePayload s m).outcome fun e => s.complete e := by
  rw [execDecrypt_eq he h16 hc, checkTag_eq h16 hc]
  unfold State.TagMatches at ht
  cases hfp : s.cfg.fp with
  | none => simp
  | some f => simp [ht f hfp]

/-- A payload that opens with a plaintext of four bytes or more is stored without its last four (R186). -/
theorem execDecrypt_of_opened {s : State} {r : List Byte} (he : s.enc = true) (h16 : 16 ≤ s.len)
    (hc : s.len ≤ s.capacity) (ht : s.TagMatches) (hr : cbcDecUnpad s.schedule s.iv s.region = some r)
    (h4 : 4 ≤ r.length) : execDecrypt s = .next (decrypted s (r.take (r.length - 4))) := by
  have hlen := cbcDecUnpad_length_lt hr
  have hreg : s.region.length ≤ s.len := by simp [State.region, State.regionLen]
  rw [execDecrypt_of_good_tag he h16 hc ht]
  unfold openBody
  simp only [hr, if_neg (Nat.not_lt.mpr h4), Part.ok_andThen]
  rw [storePayload_ok (by simp; omega)]
  rfl

/-- A payload that does not open, or opens with fewer than four bytes, is a DecryptFailure (R185, R186). -/
theorem execDecrypt_of_unopened {s : State} (he : s.enc = true) (h16 : 16 ≤ s.len) (hc : s.len ≤ s.capacity)
    (ht : s.TagMatches) (hr : ∀ r, cbcDecUnpad s.schedule s.iv s.region = some r → r.length < 4) :
    execDecrypt s = .next (s.complete .decryptFailure) := by
  rw [execDecrypt_of_good_tag he h16 hc ht]
  rcases openBody_eq_raised_or_ok s s.region with h | ⟨r, h1, h2, -⟩
  · simp [h]
  · exact absurd (hr r h1) (by omega)

/-- What a successful DECRYPT leaves: the payload and its length, the flags, and every register it does not write. -/
theorem decrypted_spec {s : State} {m : List Byte} (h : m.length ≤ s.capacity) :
    (decrypted s m).len = m.length ∧ (decrypted s m).bytes 0 m.length = m ∧ (decrypted s m).err = .success ∧
      (decrypted s m).enc = false ∧ (decrypted s m).busy = false ∧ (decrypted s m).rng = s.rng ∧
      (decrypted s m).draws = s.draws ∧ SameOutside s (decrypted s m) := by
  refine ⟨?_, ?_, rfl, rfl, rfl, rfl, rfl, by simp [SameOutside, decrypted]⟩
  · simpa [decrypted, State.len] using State.setPlen_len h
  · apply State.bytes_eq_of
    intro i hi
    apply State.byteAt_of_get?
    simp [decrypted, Memory.get?_keepBelow, Memory.get?_setBytes, hi]

/-- Everything a DECRYPT that completes can have done, from any state: it has stored a payload shorter than the one it
found, or it has only reported an error (R180, R188). -/
theorem execDecrypt_next {s t : State} (h : execDecrypt s = .next t) :
    (∃ m, m.length < s.len ∧ m.length ≤ s.capacity ∧ t = decrypted s m) ∨ (∃ e, e ≠ .success ∧ t = s.complete e) := by
  by_cases he : s.enc = false
  · rw [execDecrypt_of_unflagged he] at h
    exact .inr ⟨_, by simp, (Host.Outcome.next.inj h).symm⟩
  have he' : s.enc = true := by simpa using he
  by_cases h16 : s.len < 16
  · rw [execDecrypt_of_short he' h16] at h
    exact .inr ⟨_, by simp, (Host.Outcome.next.inj h).symm⟩
  have hview : newView s.len s.fpen = .ok ⟨s.len, s.fpen⟩ := newView_ok (by split <;> omega)
  rw [execDecrypt, decryptSteps, if_neg he, if_neg h16, hview, Part.ok_andThen, encryptionRegion] at h
  rcases Part.outcome_eq_next.mp h with hok | ⟨e, hr, rfl⟩
  · obtain ⟨ct, hct, hok⟩ := Part.andThen_eq_ok.mp hok
    obtain ⟨u, -, hok⟩ := Part.andThen_eq_ok.mp hok
    obtain ⟨m, hm, hok⟩ := Part.andThen_eq_ok.mp hok
    obtain ⟨hle, rfl⟩ := State.memRead_eq_ok.mp hct
    have helen : View.elen ⟨s.len, s.fpen⟩ ≤ s.len := by unfold View.elen; split <;> simp
    rcases openBody_eq_raised_or_ok s (s.bytes 0 (View.elen ⟨s.len, s.fpen⟩)) with h1 | ⟨r, h1, h2, h3⟩
    · simp [h1] at hm
    · have hlt := cbcDecUnpad_length_lt h1
      simp only [State.bytes_length] at hlt
      rw [h3, Part.ok.injEq] at hm
      subst hm
      have hm1 : (r.take (r.length - 4)).length < s.len := by simp; omega
      have hm2 : (r.take (r.length - 4)).length ≤ s.capacity := by simp; omega
      rw [storePayload_ok hm2, Part.ok.injEq] at hok
      exact .inl ⟨_, hm1, hm2, hok.symm⟩
  · refine .inr ⟨e, ?_, rfl⟩
    rcases Part.andThen_eq_raised.mp hr with hr | ⟨ct, -, hr⟩
    · unfold State.memRead at hr
      split at hr <;> simp at hr
    rcases Part.andThen_eq_raised.mp hr with hr | ⟨u, -, hr⟩
    · unfold checkTag at hr
      split at hr
      · simp at hr
      · rcases Part.andThen_eq_raised.mp hr with hr | ⟨st, -, hr⟩
        · unfold getTag State.memRead at hr
          split at hr
          · split at hr <;> simp at hr
          · simp at hr
            simp [← hr]
        · split at hr
          · simp at hr
          · simp at hr
            simp [← hr]
    rcases Part.andThen_eq_raised.mp hr with hr | ⟨m, -, hr⟩
    · rcases openBody_eq_raised_or_ok s ct with h1 | ⟨r, -, -, h3⟩
      · rw [h1, Part.raised.injEq] at hr
        simp [← hr]
      · simp [h3] at hr
    · rw [storePayload] at hr
      rcases Part.andThen_eq_raised.mp hr with hr | ⟨s1, -, hr⟩
      · exact absurd hr State.memWrite_ne_raised
      · simp at hr

/-- DECRYPT completes from every state whose payload is inside the buffer. -/
theorem execDecrypt_completes {s : State} (hc : s.len ≤ s.capacity) : ∃ t, execDecrypt s = .next t := by
  by_cases he : s.enc = false
  · exact ⟨_, execDecrypt_of_unflagged he⟩
  have he' : s.enc = true := by simpa using he
  by_cases h16 : s.len < 16
  · exact ⟨_, execDecrypt_of_short he' h16⟩
  by_cases ht : s.TagMatches
  · by_cases hr : ∃ r, cbcDecUnpad s.schedule s.iv s.region = some r ∧ 4 ≤ r.length
    · obtain ⟨r, h1, h2⟩ := hr
      exact ⟨_, execDecrypt_of_opened he' (by omega) hc ht h1 h2⟩
    · refine ⟨_, execDecrypt_of_unopened he' (by omega) hc ht fun r h => ?_⟩
      by_contra h4
      exact hr ⟨r, h, by omega⟩
  · exact ⟨_, execDecrypt_of_bad_tag he' (by omega) hc ht⟩

end Sys2Proof.Machine
end

