-- ==== Sys2Proof/Laws/HostPort.lean ====
section
/-!
SUPPORT. What a move of the host can do, said once (spec/20_memory.md R57, spec/70_reset_and_hazards.md R252), and the register
numbers.
-/

namespace Sys2Proof.Machine

@[simp] theorem regOfNumber_regNumber (r : Reg) : regOfNumber (regNumber r) = some r := by cases r <;> rfl

theorem regNumber_of_regOfNumber {no : Nat} {r : Reg} (h : regOfNumber no = some r) : no = regNumber r := by
  unfold regOfNumber at h
  split at h <;> simp_all [regNumber, eq_comm]

/-- Numbers of 8 and above have no register (R32). -/
theorem regOfNumber_none {no : Nat} (h : 8 ≤ no) : regOfNumber no = none := by
  match no, h with
  | n + 8, _ => rfl

/-- The state `t` is what one move of the host on a free engine makes of `s`: one register or one payload byte written,
a command issued, or something read (R31, R57). -/
inductive HostEffect (s : State) : State → Prop where
  | issue (c : Byte) : HostEffect s (s.issue c)
  | plen (n : Nat) (h : n ≤ s.capacity) : HostEffect s (s.setPlen n)
  | hsrc (v : BitVec 32) : HostEffect s (s.setHsrc v)
  | hdst (v : BitVec 32) : HostEffect s (s.setHdst v)
  | hproto (v : BitVec 32) : HostEffect s (s.setHproto v)
  | enc (b : Bool) : HostEffect s (s.setEnc b)
  | byte (a : Nat) (b : Byte) (h : a < s.capacity) : HostEffect s (s.setPb (Memory.set s.pb a b))
  | read (r : HostRead) : HostEffect s (s.record r)

theorem writeReg_next {r : Reg} {v : BitVec 32} {s t : State} (h : writeReg r v s = .next t) : HostEffect s t := by
  cases r <;> simp only [writeReg, Host.Outcome.next.injEq, reduceCtorEq] at h
  case plen =>
    split at h
    · simp at h
    · obtain rfl := Host.Outcome.next.inj h
      exact .plen _ (by omega)
  all_goals subst h
  · exact .issue _
  · exact .hsrc _
  · exact .hdst _
  · exact .hproto _
  · exact .enc _

theorem hostWrite_next {no : Nat} {v : BitVec 32} {s t : State} (h : hostWrite no v s = .next t) :
    s.busy = false ∧ HostEffect s t := by
  unfold hostWrite at h
  split at h
  · simp at h
  · split at h
    · simp at h
    · next hb => exact ⟨by simpa using hb, writeReg_next h⟩

theorem hostRead_next {no : Nat} {s t : State} (h : hostRead no s = .next t) : ∃ r, t = s.record r := by
  unfold hostRead at h
  split at h
  · simp at h
  · split at h
    · simp at h
    · split at h
      · simp at h
      · exact ⟨_, (Host.Outcome.next.inj h).symm⟩

/-- What a move of the host can do: reset, a poll of WAIT that finds the engine busy, or one effect on the state whose
program is the rest. -/
theorem hostMove_next {op : HostOp} {rest : List HostOp} {s t : State} (h : hostMove op rest s = .next t) :
    (∃ c, op = .reset c ∧ t = (s.withScript rest).afterReset c) ∨ (s.busy = true ∧ ∃ r, t = s.record r) ∨
      HostEffect (s.withScript rest) t := by
  cases op with
  | wr no v => exact .inr (.inr (hostWrite_next h).2)
  | rd no =>
    obtain ⟨r, rfl⟩ := hostRead_next h
    exact .inr (.inr (.read r))
  | wrb a b =>
    simp only [hostMove, writeByte] at h
    split at h
    · simp at h
    · split at h
      · next ha =>
        obtain rfl := Host.Outcome.next.inj h
        exact .inr (.inr (.byte a b ha))
      · simp at h
  | rdb a =>
    simp only [hostMove, readByte] at h
    split at h
    · simp at h
    · split at h
      · obtain rfl := Host.Outcome.next.inj h
        exact .inr (.inr (.read _))
      · simp at h
  | wait =>
    simp only [hostMove, hostWait] at h
    split at h
    · next hb => exact .inr (.inl ⟨hb, _, (Host.Outcome.next.inj h).symm⟩)
    · obtain rfl := Host.Outcome.next.inj h
      exact .inr (.inr (.read _))
  | reset c => exact .inl ⟨c, rfl, (Host.Outcome.next.inj h).symm⟩

theorem hostStep_nil {s : State} (h : s.script = []) : hostStep s = .next s := by simp [hostStep, h]

theorem hostStep_cons {s : State} {op : HostOp} {rest : List HostOp} (h : s.script = op :: rest) :
    hostStep s = hostMove op rest s := by simp [hostStep, h]

end Sys2Proof.Machine
end

