-- ==== Sys2Proof/Laws/PerInstr.lean ====
section
/-!
SUPPORT. Statements made per instruction, one lemma for each constructor of Instr: a command is well formed, its word is a
well-formed command word, and its word is decoded back to it (spec/30_encoding.md R71).
-/

namespace Sys2Proof.Laws.CommandWord

/-- The command's word is well formed and stands for the command alone (R71). -/
def Statement (i : Instr) : Prop :=
  i.wf = true ∧ commandWordWf (encode i) = true ∧ decode (encode i) = .ok i

theorem encrypt : Statement .encrypt := ⟨rfl, rfl, rfl⟩

theorem decrypt : Statement .decrypt := ⟨rfl, rfl, rfl⟩

end Sys2Proof.Laws.CommandWord
end

