-- ==== Sys2Proof/Laws/Turn.lean ====
section
/-!
SUPPORT. The step of the machine as the step of the agent whose turn it is, and the placing of a command.
-/

namespace Sys2Proof.Machine

/-- The step is that of the agent whose turn it is (assumption 8). -/
theorem step_eq (s : State) :
    step s = match s.turn with
      | .engine => engineStep s.atTurn
      | .host => hostStep s.atTurn := by
  unfold step takeTurn State.turn State.atTurn
  cases hs : s.sched with
  | nil =>
    have : s.withSched [] = s := by rw [← hs]; rfl
    cases hb : s.busy <;> simp [this]
  | cons a rest => cases a <;> rfl

theorem step_engine {s : State} (h : s.turn = .engine) : step s = engineStep s.atTurn := by simp [step_eq, h]

theorem step_host {s : State} (h : s.turn = .host) : step s = hostStep s.atTurn := by simp [step_eq, h]

@[simp] theorem State.atTurn_sched (s : State) : s.atTurn.sched = s.sched.tail := rfl

@[simp] theorem State.atTurn_busy (s : State) : s.atTurn.busy = s.busy := rfl

@[simp] theorem State.atTurn_cmdl (s : State) : s.atTurn.cmdl = s.cmdl := rfl

@[simp] theorem State.atTurn_script (s : State) : s.atTurn.script = s.script := rfl

@[simp] theorem State.atTurn_cfg (s : State) : s.atTurn.cfg = s.cfg := rfl

@[simp] theorem State.atTurn_pcap (s : State) : s.atTurn.pcap = s.pcap := rfl

@[simp] theorem State.atTurn_err (s : State) : s.atTurn.err = s.err := rfl

@[simp] theorem State.atTurn_len (s : State) : s.atTurn.len = s.len := rfl

@[simp] theorem State.atTurn_capacity (s : State) : s.atTurn.capacity = s.capacity := rfl

@[simp] theorem State.atTurn_inv (s : State) : s.atTurn.Inv ↔ s.Inv := Iff.rfl

theorem engineStep_idle {s : State} (h : s.busy = false) : engineStep s = .next s := by simp [engineStep, h]

theorem engineStep_busy {s : State} (h : s.busy = true) : engineStep s = completion s := by simp [engineStep, h]

theorem completion_of_ok {s : State} {i : Instr} (h : decode s.cmdl = .ok i) : completion s = exec i s := by
  simp [completion, h]

theorem completion_of_error {s : State} {r : DecodeReject} (h : decode s.cmdl = .error r) :
    completion s = .next (s.complete .illegalCommand) := by
  simp [completion, h, completeReserved]

@[simp] theorem State.withFetchWord_turn (s : State) (nbits w : Nat) : (s.withFetchWord nbits w).turn = .engine := rfl

/-- The state made for a command word runs it at the very next step. -/
theorem step_withFetchWord (s : State) (nbits w : Nat) :
    step (s.withFetchWord nbits w) = completion (s.withFetchWord nbits w) := rfl

end Sys2Proof.Machine
end

