-- ==== Sys2Proof/Laws/Step.lean ====
section
/-!
SUPPORT. Everything a step of the machine can do, said once: what a command leaves alone, and the cases of a step that
answers a next state.
-/

namespace Sys2Proof.Machine

theorem SameOutside.refl (s : State) : SameOutside s s := by simp [SameOutside]

theorem SameOutside.complete (s : State) (e : Err) : SameOutside s (s.complete e) := by simp [SameOutside]

theorem SameOutside.drawn (s : State) (e : Err) : SameOutside s (s.afterDraw.complete e) := by simp [SameOutside]

theorem SameOutside.spoiled (s : State) (e : Err) : SameOutside s (s.afterDraw.spoil.complete e) := by
  simp [SameOutside]

theorem SameOutside.capacity {s t : State} (h : SameOutside s t) : t.capacity = s.capacity := by
  unfold State.capacity
  rw [h.1]

/-- A command that completes has cleared BUSY and has left alone everything that no command writes (R31, R34). -/
theorem exec_next {i : Instr} {s t : State} (h : exec i s = .next t) : SameOutside s t ∧ t.busy = false := by
  cases i with
  | encrypt =>
    rcases execEncrypt_next h with ⟨-, rfl⟩ | ⟨-, -, e, -, rfl⟩ | ⟨hf, rfl⟩
    · exact ⟨.drawn s _, rfl⟩
    · exact ⟨.spoiled s e, rfl⟩
    · have hs := encrypted_spec hf
      exact ⟨hs.2.2.2.2.2.2.2.2, hs.2.2.2.2.2.1⟩
  | decrypt =>
    rcases execDecrypt_next h with ⟨m, -, hm, rfl⟩ | ⟨e, -, rfl⟩
    · have hs := decrypted_spec hm
      exact ⟨hs.2.2.2.2.2.2.2, hs.2.2.2.2.1⟩
    · exact ⟨.complete s e, rfl⟩

/-- A command completes from every state whose payload is inside the buffer (R260). -/
theorem exec_completes (i : Instr) {s : State} (hc : s.len ≤ s.capacity) : ∃ t, exec i s = .next t := by
  cases i with
  | encrypt => exact execEncrypt_completes s
  | decrypt => exact execDecrypt_completes hc

/-- Everything a step that answers a next state can be: an engine or a host with nothing to do, a command, a reserved
code, a reset, a poll that finds the engine busy, or one effect of the host. -/
theorem step_next {s t : State} (h : step s = .next t) :
    t = s.atTurn ∨
      (s.turn = .engine ∧ s.busy = true ∧
        ((∃ i, decode s.cmdl = .ok i ∧ exec i s.atTurn = .next t) ∨ t = s.atTurn.complete .illegalCommand)) ∨
      (s.turn = .host ∧ ∃ op rest, s.script = op :: rest ∧
        ((∃ c, op = .reset c ∧ t = (s.atTurn.withScript rest).afterReset c) ∨
          (s.busy = true ∧ ∃ r, t = s.atTurn.record r) ∨ HostEffect (s.atTurn.withScript rest) t)) := by
  cases ht : s.turn with
  | engine =>
    rw [step_engine ht] at h
    cases hb : s.busy with
    | false =>
      rw [engineStep_idle (s := s.atTurn) hb] at h
      exact .inl (Host.Outcome.next.inj h).symm
    | true =>
      rw [engineStep_busy (s := s.atTurn) hb] at h
      cases hd : decode s.cmdl with
      | ok i =>
        rw [completion_of_ok (s := s.atTurn) hd] at h
        exact .inr (.inl ⟨rfl, rfl, .inl ⟨i, rfl, h⟩⟩)
      | error r =>
        rw [completion_of_error (s := s.atTurn) hd] at h
        exact .inr (.inl ⟨rfl, rfl, .inr (Host.Outcome.next.inj h).symm⟩)
  | host =>
    rw [step_host ht] at h
    cases hs : s.script with
    | nil =>
      rw [hostStep_nil (s := s.atTurn) hs] at h
      exact .inl (Host.Outcome.next.inj h).symm
    | cons op rest =>
      rw [hostStep_cons (s := s.atTurn) hs] at h
      exact .inr (.inr ⟨rfl, op, rest, rfl, hostMove_next h⟩)

end Sys2Proof.Machine
end

