-- ==== Sys2Proof/Tests/Slice0.lean ====
section
/-!
SUPPORT. The model's own tests, each with an expected result from spec/, and for every statement with hypotheses a named
witness: a concrete state and operands that meet all of them together.
-/

namespace Sys2Proof.Tests

open Sys2Proof Sys2Proof.Machine

-- One evaluation at a time: the tests that run a whole cipher would else wait for one another, each on a stack of its own.
set_option Elab.async false

/-! ### Helpers -/

/-- Bytes from numbers. -/
def bytesOf (l : List Nat) : List Byte := l.map fun n => BitVec.ofNat 8 n

/-- `n` bytes that count up from `a`. -/
def countUp (a n : Nat) : List Byte := (List.range n).map fun i => BitVec.ofNat 8 (a + i)

/-- K128 of spec/95_test_vectors.md: 00 01 .. 0f. -/
def k128 : Key := .aes128 (toBlock (countUp 0 16))

/-- K256 of spec/95_test_vectors.md: 00 01 .. 1f. -/
def k256 : Key := .aes256 (toBlock (countUp 0 16)) (toBlock (countUp 16 16))

/-- The header HDR_A of spec/95_test_vectors.md, a capacity, a configuration, the flag and a payload; the draw to come is
0xDEADBEEF. -/
def packet (cap : Fin 65536) (key : Key) (fp : Option Fingerprint) (enc : Bool) (m : List Byte) : State :=
  { State.reset with
    pcap := cap
    cfg := ⟨key, fp⟩
    hsrc := 0x0A000001#32
    hdst := 0x0A000002#32
    hiproto := 6#8
    htproto := 1#8
    httl := 64#8
    plen := BitVec.ofNat 16 m.length
    pb := Memory.setBytes [] 0 m
    enc := enc
    rng := [0xDEADBEEF#32] }

/-- The payload "hello". -/
def hello : List Byte := bytesOf [0x68, 0x65, 0x6c, 0x6c, 0x6f]

/-- The ciphertext of vector E1. -/
def cipherE1 : List Byte :=
  bytesOf [0xd4, 0x7f, 0x25, 0xf3, 0xf8, 0xdb, 0x46, 0x4e, 0x8c, 0x68, 0x48, 0x63, 0xe0, 0x4a, 0x1d, 0xa2]

/-- The ciphertext and the tag of vector E4. -/
def sealedE4 : List Byte :=
  bytesOf [0x75, 0x06, 0x9c, 0xa1, 0x73, 0x71, 0xac, 0x01, 0xa5, 0x68, 0x56, 0x60, 0xf1, 0x67, 0x36, 0x23] ++
    bytesOf [0x27, 0x7e, 0x20, 0x9e, 0x72, 0xb3, 0x15, 0x7d, 0xf5, 0xe2, 0xfa, 0xd8]

/-- The ciphertext of vector X9, which opens with three bytes. -/
def cipherX9 : List Byte :=
  bytesOf [0xd5, 0xdf, 0xd6, 0x1e, 0x17, 0x6d, 0x7d, 0x23, 0x2a, 0xe1, 0xe6, 0x37, 0xc9, 0x17, 0x7b, 0xb5]

/-- The ciphertext of vector X10, which opens with four bytes. -/
def cipherX10 : List Byte :=
  bytesOf [0xc7, 0x7a, 0xfa, 0x08, 0x3e, 0x56, 0xea, 0xa2, 0x81, 0x63, 0x9e, 0x83, 0xd1, 0x15, 0xb3, 0x46]

/-- The ciphertext of vector M18, whose padding is bad. -/
def cipherM18 : List Byte :=
  bytesOf [0xb9, 0x99, 0xc8, 0xc4, 0x39, 0x28, 0x6a, 0x24, 0xe2, 0x7c, 0x3b, 0x1e, 0xbd, 0xbb, 0x31, 0x72]

/-- Whether a step answered a next state. -/
def ran (o : Result) : Bool :=
  match o with
  | .next _ => true
  | _ => false

/-- The state a step answered; the state after reset where it answered none. -/
def after (o : Result) : State :=
  match o with
  | .next s => s
  | _ => State.reset

theorem next_after {o : Result} (h : ran o = true) : o = .next (after o) := by
  cases o <;> simp_all [ran, after]

/-- Whether a step ended with this result, flag and payload, and BUSY = 0. -/
def ended (o : Result) (e : Err) (enc : Bool) (m : List Byte) : Bool :=
  match o with
  | .next s => decide (s.err = e) && s.enc == enc && !s.busy && s.len == m.length && s.bytes 0 m.length == m
  | _ => false

/-- A host move at hand, the engine idle or busy. -/
def hostAt (busy : Bool) (op : HostOp) : State :=
  { packet 64 k128 none false hello with busy := busy, sched := [.host], script := [op] }

/-- A packet to encrypt, without and with a fingerprint function. -/
def tPlain : State := packet 64 k128 none false hello

def tPlainFp : State := packet 64 k128 (some .fpTest) false hello

/-- A packet to decrypt, without and with a fingerprint function. -/
def tSealed : State := packet 64 k128 none true cipherE1

def tSealedFp : State := packet 64 k128 (some .fpTest) true sealedE4

/-! ### Well-formedness and decoding -/

/-- R72: the codes beside the two assigned ones are refused. -/
theorem test_wf_refuses_reserved_words :
    commandWordWf 0b00000000#8 = false ∧ commandWordWf 0b00000011#8 = false ∧ commandWordWf 0b11111111#8 = false := by
  decide

/-- R71: the words of the two commands, bit by bit. -/
theorem test_decode_encrypt_word : decode 0b00000001#8 = .ok .encrypt := rfl

theorem test_decode_decrypt_word : decode 0b00000010#8 = .ok .decrypt := rfl

/-- R71, R72: the whole byte is compared. -/
theorem test_decode_compares_the_whole_byte :
    decode 0b10000001#8 = .error (.reservedCode 0b10000001#8) ∧ decode 0b00000011#8 = .error (.reservedCode 3#8) :=
  ⟨rfl, rfl⟩

/-! ### The units, with the worked examples of their rules -/

/-- R132. -/
theorem test_gmul_examples :
    xtime 0x57#8 = 0xae#8 ∧ gmul 0x57#8 0x13#8 = 0xfe#8 ∧ gmul 0x57#8 0x83#8 = 0xc1#8 ∧ gmul 0x53#8 0xca#8 = 0x01#8 := by
  decide +kernel

/-- R134. -/
theorem test_sbox_examples :
    sbox 0x9a#8 = 0xb8#8 ∧ sbox 0x00#8 = 0x63#8 ∧ invSbox 0x63#8 = 0x00#8 ∧ sbox 0xff#8 = 0x16#8 := by decide +kernel

/-- R141: the branch that only AES-256 takes. -/
theorem test_key_expansion_256 : (keyExpansion k256).words.getD 12 zeroWord = ⟨0x16#8, 0x51#8, 0xa8#8, 0xcd#8⟩ := by
  decide +kernel

/-- R142, the second example. -/
theorem test_cipher_256 :
    blockBytes (cipher (keyExpansion k256) (toBlock (bytesOf
      [0x00, 0x11, 0x22, 0x33, 0x44, 0x55, 0x66, 0x77, 0x88, 0x99, 0xaa, 0xbb, 0xcc, 0xdd, 0xee, 0xff]))) =
      bytesOf [0x8e, 0xa2, 0xb7, 0xca, 0x51, 0x67, 0x45, 0xbf, 0xea, 0xfc, 0x49, 0x90, 0x4b, 0x49, 0x60, 0x89] := by
  decide +kernel

/-- R165: a wrong byte inside the padding, and a last byte above 16. -/
theorem test_unpad_refuses :
    unpad (rep 0#8 12 ++ bytesOf [4, 4, 3, 4]) = none ∧ unpad (rep 0#8 15 ++ bytesOf [0x11]) = none := by decide +kernel

/-- R91, R93 with FP_TEST. -/
theorem test_salt_and_tag :
    salt4 .fpTest tPlain.c12 = bytesOf [0x26, 0xc9, 0x02, 0x51] ∧
      tag12 .fpTest tPlain.c12 [] =
        bytesOf [0x26, 0xc9, 0x02, 0x51, 0x39, 0x4f, 0x5b, 0xbe, 0x62, 0xb4, 0xcf, 0xab] := by decide +kernel

/-- R32: HPROTO of HDR_B, and STATUS with IllegalCommand in flight of the next command. -/
theorem test_packed_registers :
    (tPlain.setHproto 0x01010211#32).hprotoWord = 0x01010211#32 ∧ (tPlain.setHproto 0x01010211#32).hiproto = 0x11#8 ∧
      ({ tPlain with busy := true, err := .illegalCommand } : State).statusWord = 0x8F#32 := by decide +kernel

/-! ### The commands, with the vectors of spec/95_test_vectors.md -/

/-- E1, as the step that runs the placed word. -/
theorem test_encrypt_E1 : ended (step (tPlain.withFetchWord 8 0x01)) .success true cipherE1 = true := by decide +kernel

/-- E4: with FP_TEST. -/
theorem test_encrypt_E4 : ended (exec .encrypt tPlainFp) .success true sealedE4 = true := by decide +kernel

/-- X1, as the step that runs the placed word. -/
theorem test_decrypt_X1 : ended (step (tSealed.withFetchWord 8 0x02)) .success false hello = true := by decide +kernel

/-- X17: one bit of the tag flipped. -/
theorem test_decrypt_X17 :
    ended (exec .decrypt (packet 64 k128 (some .fpTest) true (sealedE4.set 27 0x58#8))) .integrityFailure true
      (sealedE4.set 27 0x58#8) = true := by decide +kernel

/-! ### Witnesses: encoding and the step -/

theorem witness_StepRunsTheDecodedCommand :
    (State.reset.withFetchWord 8 0x02).turn = .engine ∧ (State.reset.withFetchWord 8 0x02).busy = true ∧
      decode (State.reset.withFetchWord 8 0x02).cmdl = .ok .decrypt :=
  ⟨rfl, rfl, rfl⟩

theorem witness_ReservedCodeCompletesAsIllegalCommand :
    let s : State := { tPlain with script := [.wr 0 0x103#32] }
    s.turn = .host ∧ s.busy = false ∧ s.script = .wr 0 0x103#32 :: [] ∧
      (0x103#32).extractLsb' 0 8 ≠ 0x01#8 ∧ (0x103#32).extractLsb' 0 8 ≠ 0x02#8 := by
  decide +kernel

theorem witness_ReservedCodeCompletesAsIllegalCommand_completion :
    let s : State := { tPlain with cmdl := 0x03#8, busy := true }
    s.turn = .engine ∧ s.busy = true ∧ s.cmdl ≠ 0x01#8 ∧ s.cmdl ≠ 0x02#8 := by
  decide +kernel

/-! ### Witnesses: the tag, the codec, the cipher -/

theorem witness_ContextVectorIsPrefixAndSalt : tPlain.cfg.fp = none ∧ tPlainFp.cfg.fp = some .fpTest := ⟨rfl, rfl⟩

theorem witness_TagIsTwelveBytesComparedWhole :
    (rep 0#8 12).length = 12 ∧ (rep 0#8 11 ++ [1#8]).length = 12 := by decide

/-- The corner cases of R111: each clause at the ends of its range. -/
theorem witness_NewViewFailsOnShortOrEmptyBodies :
    ((if true then 12 else 0) < 13 ∧ newView 13 true = .ok ⟨13, true⟩) ∧ ((if false then 12 else 0) < 1) ∧
      (12 ≤ (if true then 12 else 0) ∧ newView 12 true = .raised .malformedBody) ∧ 11 ≤ (if true then 12 else 0) ∧
      (0 ≤ (if false then 12 else 0) ∧ newView 0 false = .raised .malformedBody) := by decide

theorem witness_NonceGoesToTheEndOfTheRegion :
    View.elen ⟨3, false⟩ < 4 ∧ View.elen ⟨15, true⟩ < 4 ∧ (4 ≤ View.elen ⟨4, false⟩ ∧ 4 ≤ tPlain.capacity) ∧
      (4 ≤ View.elen ⟨64, true⟩ ∧ 64 ≤ tPlain.capacity) := by decide

theorem witness_TagRegionIsTheEndOfTheView :
    (12 ≤ 12 ∧ 12 ≤ tPlain.capacity ∧ (rep 0#8 12).length = 12) ∧ (12 ≤ 64 ∧ 64 ≤ tPlain.capacity) := by decide

theorem witness_GmulIsFieldMultiplication : 0x53#8 ≠ 0x00#8 ∧ gmul 0x53#8 0xca#8 = 0x01#8 := by decide +kernel

theorem witness_SboxIsAffineMapOfInverse :
    (gmul 0x53#8 0xca#8 = 0x01#8 ∧ sbox 0x53#8 = 0xed#8) ∧ (0x00#8 = 0x00#8 ∧ sbox 0x00#8 = aff 0x00#8) := by
  decide +kernel

theorem witness_ShiftRowsRotatesEachRow : 3 < 4 ∧ 0 < 4 := by decide

/-- The first column and the last, with the column R145 gives as an example in the last. -/
theorem witness_InverseRoundTransformationsUndo :
    let s : Block := ⟨zeroWord, zeroWord, zeroWord, ⟨0x8e#8, 0x4d#8, 0xa1#8, 0xbc#8⟩⟩
    (0 < 4 ∧ ((blockBytes s).drop (4 * 0)).take 4 = [0#8, 0#8, 0#8, 0#8]) ∧
      (3 < 4 ∧ ((blockBytes s).drop (4 * 3)).take 4 = [0x8e#8, 0x4d#8, 0xa1#8, 0xbc#8]) := by decide

/-- The three clauses of the recurrence for AES-256, and its ends. -/
theorem witness_KeyScheduleFollowsItsRecurrence :
    3 < 4 ∧ 7 < 8 ∧ 1 ≤ 1 ∧ (Key.nk k256 ≤ 8 ∧ 8 % Key.nk k256 = 0) ∧ (6 < Key.nk k256 ∧ 12 % Key.nk k256 = 4) ∧
      (59 < 4 * ((keyExpansion k256).nr + 1) ∧ 59 % Key.nk k256 = 3) ∧ (Key.nk k128 ≤ 43 ∧ 43 < 4 * ((keyExpansion k128).nr + 1)) := by decide

/-! ### Witnesses: the block mode and the padding -/

theorem witness_UnpadAcceptsExactlyValidPadding :
    (rep 0x10#8 16).length ≠ 0 ∧ (rep 0x10#8 16).length % 16 = 0 ∧ unpad (rep 0x10#8 16) = some [] := by decide +kernel

/-- The first block and the last. -/
theorem witness_CbcDecryptionInvertsEncryption :
    (rep 0#8 32).length % 16 = 0 ∧ 16 * 0 < (rep 0#8 32).length ∧ 16 * 1 < (rep 0#8 32).length := by decide

theorem witness_CbcDecUnpadChecksLengths :
    ([] : List Byte).length = 0 ∧ (rep 0#8 17).length % 16 ≠ 0 ∧ (cipherE1.length ≠ 0 ∧ cipherE1.length % 16 = 0) ∧
      cbcDecUnpad tSealed.schedule tSealed.iv cipherE1 = some (hello ++ be32 0xDEADBEEF#32) := by decide +kernel

theorem witness_WrongIvChangesTheFirstBlockOnly : 16 ≤ (rep 0#8 32).length ∧ (rep 0#8 32).length % 16 = 0 := by decide

/-! ### Witnesses: DECRYPT -/

theorem witness_DecryptRefusesUnflaggedPackets :
    tPlain.enc = false ∧
      (exec .decrypt tSealed = .next (after (exec .decrypt tSealed)) ∧ (after (exec .decrypt tSealed)).err = .success) :=
  ⟨rfl, next_after (by decide +kernel), by decide +kernel⟩

/-- The greatest length that is refused and the least that passes. -/
theorem witness_DecryptRefusesShortPayloads :
    ((packet 64 k128 none true (rep 0#8 15)).enc = true ∧ (packet 64 k128 none true (rep 0#8 15)).len < 16) ∧
      (tSealed.enc = true ∧ 16 ≤ tSealed.len ∧ tSealed.len ≤ 16 ∧ tSealed.len ≤ tSealed.capacity) := by decide +kernel

/-- X16 for the first clause (a ciphertext bit flipped), X15 for the second, X1 for the third. -/
theorem witness_DecryptChecksTheTagFirst :
    (let s := packet 64 k128 (some .fpTest) true (sealedE4.set 3 0xa0#8)
     s.enc = true ∧ 16 ≤ s.len ∧ s.len ≤ s.capacity ∧ s.cfg.fp = some .fpTest ∧
       s.storedTag ≠ tag12 .fpTest s.c12 s.region) ∧
    (tSealedFp.enc = true ∧ 16 ≤ tSealedFp.len ∧ tSealedFp.len ≤ tSealedFp.capacity ∧
      tSealedFp.cfg.fp = some .fpTest ∧ tSealedFp.storedTag = tag12 .fpTest tSealedFp.c12 tSealedFp.region) ∧
    (tSealed.enc = true ∧ 16 ≤ tSealed.len ∧ tSealed.len ≤ tSealed.capacity ∧ tSealed.cfg.fp = none) := by
  decide +kernel

theorem tagMatches_of_none {s : State} (h : s.cfg.fp = none) : s.TagMatches := by
  intro f hf
  simp [h] at hf

/-- X6, M18 and X9: the three causes of DecryptFailure. -/
theorem witness_DecryptRefusesBadPadding :
    (let s := packet 64 k128 none true (cipherE1 ++ [0#8])
     s.enc = true ∧ 16 ≤ s.len ∧ s.len ≤ s.capacity ∧ s.TagMatches ∧ s.regionLen % 16 ≠ 0) ∧
    (let s := packet 64 k128 none true cipherM18
     s.enc = true ∧ 16 ≤ s.len ∧ s.len ≤ s.capacity ∧ s.TagMatches ∧ cbcDecUnpad s.schedule s.iv s.region = none) ∧
    (let s := packet 64 k128 none true cipherX9
     s.enc = true ∧ 16 ≤ s.len ∧ s.len ≤ s.capacity ∧ s.TagMatches ∧
       cbcDecUnpad s.schedule s.iv s.region = some [1#8, 2#8, 3#8] ∧ [1#8, 2#8, 3#8].length < 4) :=
  ⟨⟨rfl, by decide, by decide, tagMatches_of_none rfl, by decide⟩,
    ⟨rfl, by decide, by decide, tagMatches_of_none rfl, by decide +kernel⟩,
    ⟨rfl, by decide, by decide, tagMatches_of_none rfl, by decide +kernel, by decide⟩⟩

/-- X15 with a fingerprint function; at the ends of the two clauses, X10 (four bytes) and X9 (three). -/
theorem witness_DecryptStoresThePlaintext :
    (tSealedFp.enc = true ∧ 16 ≤ tSealedFp.len ∧ tSealedFp.len ≤ tSealedFp.capacity ∧ tSealedFp.TagMatches ∧
      cbcDecUnpad tSealedFp.schedule tSealedFp.iv tSealedFp.region = some (hello ++ be32 0xDEADBEEF#32)) ∧
    (let s := packet 64 k128 none true cipherX10
     s.enc = true ∧ 16 ≤ s.len ∧ s.len ≤ s.capacity ∧ s.TagMatches ∧
       cbcDecUnpad s.schedule s.iv s.region = some [1#8, 2#8, 3#8, 4#8] ∧ 4 ≤ [1#8, 2#8, 3#8, 4#8].length) ∧
    (let s := packet 64 k128 none true cipherX9
     s.enc = true ∧ 16 ≤ s.len ∧ s.len ≤ s.capacity ∧ s.TagMatches ∧
       cbcDecUnpad s.schedule s.iv s.region = some [1#8, 2#8, 3#8] ∧ [1#8, 2#8, 3#8].length < 4) :=
  ⟨⟨rfl, by decide, by decide, by intro f hf; cases hf; decide +kernel, by decide +kernel⟩,
    ⟨rfl, by decide, by decide, tagMatches_of_none rfl, by decide +kernel, by decide⟩,
    ⟨rfl, by decide, by decide, tagMatches_of_none rfl, by decide +kernel, by decide⟩⟩

theorem witness_FailedDecryptChangesOnlyTheResult :
    exec .decrypt tPlain = .next (after (exec .decrypt tPlain)) ∧ (after (exec .decrypt tPlain)).err ≠ .success :=
  ⟨next_after (by decide +kernel), by decide +kernel⟩

/-- Each arm of the chain is met by one of the states above; the payload is inside the buffer in all of them, also at
the end of its range. -/
theorem witness_DecryptReportsTheFirstError :
    tPlain.len ≤ tPlain.capacity ∧ tSealed.len ≤ tSealed.capacity ∧ tSealedFp.len ≤ tSealedFp.capacity ∧
      (packet 64 k128 none true (rep 0#8 64)).len ≤ (packet 64 k128 none true (rep 0#8 64)).capacity := by decide +kernel

theorem witness_DecryptFrame :
    (exec .decrypt tSealed = .next (after (exec .decrypt tSealed)) ∧ (after (exec .decrypt tSealed)).err = .success) ∧
      (exec .decrypt tPlain = .next (after (exec .decrypt tPlain)) ∧ (after (exec .decrypt tPlain)).err ≠ .success) :=
  ⟨⟨next_after (by decide +kernel), by decide +kernel⟩, next_after (by decide +kernel), by decide +kernel⟩

/-! ### Witnesses: ENCRYPT -/

/-- Q15 of the vectors at the end of the range: 11 bytes fit into 16 without a fingerprint function, and 28 bytes of
capacity hold a sealed payload with one. -/
theorem witness_EncryptStoresTheSealedPayload :
    (packet 16 k128 none false (rep 0#8 11)).Fits ∧ (packet 28 k128 (some .fpTest) false (rep 0#8 11)).Fits := by
  unfold State.Fits
  decide +kernel

theorem witness_EncryptSucceedsExactlyWhenItFits : tPlain.len + 20 + (if tPlain.fpen then 12 else 0) ≤ tPlain.capacity := by
  decide +kernel

/-- Q4, Q3 and Q11, Q7 of the vectors: one state for each case of R205. -/
theorem witness_EncryptCapacityFailures :
    (let s := packet 32 k128 none false (rep 0#8 29)
     s.capacity < s.grown) ∧
    (let s := packet 30 k128 (some .fpTest) false (rep 0#8 12)
     s.grown ≤ s.capacity ∧ s.capacity < s.cipherLen ∧ s.fpen = true) ∧
    (let s := packet 40 k128 (some .fpTest) false (rep 0#8 12)
     s.grown ≤ s.capacity ∧ s.cipherLen ≤ s.capacity ∧ s.capacity < s.cipherLen + s.tagLen) := by decide +kernel

theorem witness_FailedEncryptLeavesTheRest :
    (let s := packet 32 k128 none false (rep 0#8 29)
     s.capacity < s.grown) ∧
    (let s := packet 32 k128 none false (rep 0#8 28)
     s.grown ≤ s.capacity ∧ ¬ s.Fits) := by
  unfold State.Fits
  decide +kernel

theorem witness_EncryptDoesNotReadTheFlag :
    tPlain.Fits ∧
      (let s := packet 32 k128 none false (rep 0#8 29)
       ¬ s.Fits ∧ exec .encrypt s = .next (after (exec .encrypt s))) := by
  unfold State.Fits
  exact ⟨by decide +kernel, by decide +kernel, next_after (by decide +kernel)⟩

/-- A success, the growth failure (Q4) and a later failure (Q3). -/
theorem witness_EncryptFrame :
    (exec .encrypt tPlain = .next (after (exec .encrypt tPlain)) ∧ (after (exec .encrypt tPlain)).err = .success) ∧
    (let s := packet 32 k128 none false (rep 0#8 29)
     exec .encrypt s = .next (after (exec .encrypt s)) ∧ (after (exec .encrypt s)).err ≠ .success ∧
       s.capacity < s.grown) ∧
    (let s := packet 32 k128 none false (rep 0#8 28)
     exec .encrypt s = .next (after (exec .encrypt s)) ∧ (after (exec .encrypt s)).err ≠ .success ∧
       s.grown ≤ s.capacity) :=
  ⟨⟨next_after (by decide +kernel), by decide +kernel⟩,
    ⟨next_after (by decide +kernel), by decide +kernel, by decide +kernel⟩,
    ⟨next_after (by decide +kernel), by decide +kernel, by decide +kernel⟩⟩

theorem witness_EncryptedRegionIsWholeBlocks :
    exec .encrypt tPlainFp = .next (after (exec .encrypt tPlainFp)) ∧
      (after (exec .encrypt tPlainFp)).err = .success :=
  ⟨next_after (by decide +kernel), by decide +kernel⟩

/-! ### Witnesses: the two commands together -/

theorem witness_DecryptAfterEncryptGivesThePayloadBack :
    tPlainFp.Fits ∧ exec .encrypt tPlainFp = .next (after (exec .encrypt tPlainFp)) := by
  unfold State.Fits
  exact ⟨by decide +kernel, next_after (by decide +kernel)⟩

/-- The sender is `tPlainFp`, the receiver `tSealedFp` (E4, X15). -/
theorem witness_ReceiverOpensTheSendersPacket :
    tPlainFp.Fits ∧ exec .encrypt tPlainFp = .next (after (exec .encrypt tPlainFp)) ∧
      SameContext tPlainFp tSealedFp ∧ tSealedFp.enc = true ∧
      tSealedFp.plen = (after (exec .encrypt tPlainFp)).plen ∧
      (after (exec .encrypt tPlainFp)).len ≤ tSealedFp.capacity ∧
      tSealedFp.bytes 0 (after (exec .encrypt tPlainFp)).len =
        (after (exec .encrypt tPlainFp)).bytes 0 (after (exec .encrypt tPlainFp)).len := by
  unfold State.Fits SameContext
  exact ⟨by decide +kernel, next_after (by decide +kernel), by decide +kernel⟩

/-- The sender is `tPlainFp`; the receivers have another TTL (X18), another ciphertext byte (X16) and another tag byte
(X17). -/
theorem witness_TamperedPacketsAreRejected :
    (tPlainFp.Fits ∧ tPlainFp.cfg.fp = some .fpTest ∧
      exec .encrypt tPlainFp = .next (after (exec .encrypt tPlainFp))) ∧
    (let t := after (exec .encrypt tPlainFp)
     let r : State := { tSealedFp with httl := 63#8 }
     r.cfg = tPlainFp.cfg ∧ r.enc = true ∧ r.plen = t.plen ∧ t.len ≤ r.capacity ∧ r.storedTag = t.storedTag ∧
       r.c12 ≠ tPlainFp.c12 ∧ Fingerprint.fpTest.TellsApart r.c12 r.region tPlainFp.c12 t.region) ∧
    (let t := after (exec .encrypt tPlainFp)
     let r : State := packet 64 k128 (some .fpTest) true (sealedE4.set 3 0xa0#8)
     r.cfg = tPlainFp.cfg ∧ r.enc = true ∧ r.plen = t.plen ∧ t.len ≤ r.capacity ∧ r.storedTag = t.storedTag ∧
       r.region ≠ t.region ∧ Fingerprint.fpTest.TellsApart r.c12 r.region tPlainFp.c12 t.region) ∧
    (let t := after (exec .encrypt tPlainFp)
     let r : State := packet 64 k128 (some .fpTest) true (sealedE4.set 27 0x58#8)
     r.cfg = tPlainFp.cfg ∧ r.enc = true ∧ r.plen = t.plen ∧ t.len ≤ r.capacity ∧ r.c12 = tPlainFp.c12 ∧
       r.region = t.region ∧ r.storedTag ≠ t.storedTag) := by
  unfold State.Fits Fingerprint.TellsApart
  exact ⟨⟨by decide +kernel, rfl, next_after (by decide +kernel)⟩, by decide +kernel, by decide +kernel, by decide +kernel⟩

theorem witness_CiphertextsDifferExactlyWithTheDraws : tPlain.Fits := by
  unfold State.Fits
  decide +kernel

/-- E11. -/
theorem witness_DoubleEncryptionNeedsTheHost :
    let t := after (exec .encrypt tPlain)
    tPlain.Fits ∧ exec .encrypt tPlain = .next t ∧ t.Fits ∧ exec .encrypt t = .next (after (exec .encrypt t)) := by
  unfold State.Fits
  exact ⟨by decide +kernel, next_after (by decide +kernel), by decide +kernel, next_after (by decide +kernel)⟩

theorem witness_CommandsStayInsideTheBuffer :
    tSealed.len ≤ tSealed.capacity ∧ Memory.below tSealed.pb tSealed.capacity = true := by decide +kernel

/-! ### Witnesses: reset and the invariant -/

theorem witness_StepKeepsTheInvariant :
    let s : State := { tSealed with cmdl := 0x02#8, busy := true }
    s.Inv ∧ step s = .next (after (step s)) := by
  unfold State.Inv
  exact ⟨by decide +kernel, next_after (by decide +kernel)⟩

theorem witness_OnlyResetChangesTheConfiguration :
    (let s := hostAt false (.reset ⟨k256, some .fpTest⟩)
     step s = .next (after (step s)) ∧ (after (step s)).cfg ≠ s.cfg ∧ s.turn = .host) ∧
    (let s := hostAt false (.rd 1)
     step s = .next (after (step s)) ∧ (after (step s)).cfg = s.cfg) :=
  ⟨⟨next_after (by decide +kernel), by decide +kernel, rfl⟩, next_after (by decide +kernel), by decide +kernel⟩

/-- A reset while a command is in flight. -/
theorem witness_ResetSamplesTheConfiguration :
    (hostAt true (.reset ⟨k256, none⟩)).turn = .host ∧
      (hostAt true (.reset ⟨k256, none⟩)).script = .reset ⟨k256, none⟩ :: [] := ⟨rfl, rfl⟩

theorem witness_WaitEnds :
    let s : State := { hostAt true .wait with cmdl := 0x01#8, sched := [.host, .host, .engine, .engine] }
    s.Inv ∧ s.busy = true ∧ s.script = .wait :: [] := by
  unfold State.Inv
  decide +kernel

/-! ### Witnesses: the host's side -/

theorem witness_IssueLatchesTheCode :
    (hostAt false (.wr 0 0x02#32)).turn = .host ∧ (hostAt false (.wr 0 0x02#32)).busy = false ∧
      (hostAt false (.wr 0 0x02#32)).script = .wr 0 0x02#32 :: [] := ⟨rfl, rfl, rfl⟩

/-- Writes by every number; of PLEN the greatest length that fits and the least that does not. -/
theorem witness_HostWriteChangesOneRegister :
    (let s := hostAt false (.wr 3 64#32)
     s.turn = .host ∧ s.busy = false ∧ s.script = .wr 3 64#32 :: [] ∧ (64#32).toNat ≤ s.capacity) ∧
    (let s := hostAt false (.wr 3 65#32)
     s.turn = .host ∧ s.busy = false ∧ s.script = .wr 3 65#32 :: [] ∧ s.capacity < (65#32).toNat) ∧
    (∀ no, (hostAt false (.wr no 1#32)).turn = .host ∧ (hostAt false (.wr no 1#32)).busy = false ∧
        (hostAt false (.wr no 1#32)).script = .wr no 1#32 :: []) :=
  ⟨by decide +kernel, by decide +kernel, fun _ => ⟨rfl, rfl, rfl⟩⟩

/-- The last address inside the buffer and the first outside, for the read and for the write. -/
theorem witness_HostReachesEveryPayloadByte :
    (∀ a, (hostAt false (.rdb a)).turn = .host ∧ (hostAt false (.rdb a)).busy = false ∧
      (hostAt false (.rdb a)).script = .rdb a :: [] ∧ (hostAt false (.wrb a 7#8)).turn = .host ∧
      (hostAt false (.wrb a 7#8)).busy = false ∧ (hostAt false (.wrb a 7#8)).script = .wrb a 7#8 :: []) ∧
    63 < (hostAt false (.rdb 63)).capacity ∧ (hostAt false (.rdb 64)).capacity ≤ 64 ∧
    63 < (hostAt false (.wrb 63 7#8)).capacity ∧ (hostAt false (.wrb 64 7#8)).capacity ≤ 64 :=
  ⟨fun _ => ⟨rfl, rfl, rfl, rfl, rfl, rfl⟩, by decide, by decide, by decide, by decide⟩

theorem witness_HostReadChangesNothing :
    ∀ no, (hostAt false (.rd no)).turn = .host ∧ (hostAt false (.rd no)).busy = false ∧
      (hostAt false (.rd no)).script = .rd no :: [] := fun _ => ⟨rfl, rfl, rfl⟩

theorem witness_HostReadChangesNothing_wait :
    (hostAt false .wait).turn = .host ∧ (hostAt false .wait).busy = false ∧ (hostAt false .wait).script = .wait :: [] :=
  ⟨rfl, rfl, rfl⟩

/-- A read of STATUS, a poll of WAIT, and a read of PLEN, which is refused. -/
theorem witness_BusyEngineRefusesTheHost :
    ∀ op, (hostAt true op).turn = .host ∧ (hostAt true op).busy = true ∧ (hostAt true op).script = op :: [] :=
  fun _ => ⟨rfl, rfl, rfl⟩

theorem witness_BusyEngineRefusesTheHost_clauses :
    HostOp.rd 1 = .rd 1 ∧ HostOp.wait = .wait ∧
      (HostOp.rd 3 ≠ .rd 1 ∧ HostOp.rd 3 ≠ .wait ∧ ∀ c, HostOp.rd 3 ≠ .reset c) :=
  ⟨rfl, rfl, by decide, by decide, fun _ => by simp⟩

theorem witness_ResultStaysUntilTheNextCompletion :
    (let s : State := { tPlain with cmdl := 0x02#8, busy := true }
     step s = .next (after (step s)) ∧ (after (step s)).err ≠ s.err) ∧
    (let s : State := { hostAt false (.reset ⟨k128, none⟩) with err := .decryptFailure }
     step s = .next (after (step s)) ∧ (after (step s)).err ≠ s.err) :=
  ⟨⟨next_after (by decide +kernel), by decide +kernel⟩, next_after (by decide +kernel), by decide +kernel⟩

end Sys2Proof.Tests
end

