-- ==== Sys2Proof/Proofs/Encoding.lean ====
section
/-!
PROOF. The decoder of command words (spec/30_encoding.md R70 to R72). The idea: every row of the opcode table has the mask
0xFF, so a word belongs to a row exactly when the whole byte is the row's code.
-/

namespace Sys2Proof

/-- Under the mask 0xFF a word belongs to a row when it is the row's code, all eight bits of it (R71). -/
theorem OpcodeRow.holds_iff_of_mask_full {r : OpcodeRow} (hmask : r.mask = 0xFF#8) (w : Byte) :
    r.holds w = true ↔ w = r.pattern := by
  have hand : w &&& r.mask = w := hmask ▸ BitVec.and_allOnes
  rw [OpcodeRow.holds, hand, beq_iff_eq]

@[simp] theorem decodeIn_nil (w : Byte) : decodeIn w [] = .error (.reservedCode w) := rfl

theorem decodeIn_cons_of_mask_full {r : OpcodeRow} (hmask : r.mask = 0xFF#8) (w : Byte) (rest : List OpcodeRow) :
    decodeIn w (r :: rest) = if w = r.pattern then .ok r.instr else decodeIn w rest := by
  simp only [decodeIn, OpcodeRow.holds_iff_of_mask_full hmask]

/-- Settles O1: both rows of the opcode table have the mask 0xFF, so each compares the word whole. -/
theorem commandCodesAreComparedWhole : Obligations.CommandCodesAreComparedWhole := by
  unfold Obligations.CommandCodesAreComparedWhole
  intro w
  rw [decode, opcodeTable, decodeIn_cons_of_mask_full rfl, decodeIn_cons_of_mask_full rfl, decodeIn_nil]

end Sys2Proof
end

