-- ==== Sys2Proof/Proofs/Tag.lean ====
section
/-!
PROOF. The tag and its comparison (spec/40_context_iv_tag.md R93, R94). The idea: `tagEq` is equality of the two sequences, and
two sequences of one length are equal exactly when they agree at every index below it.
-/

namespace Sys2Proof.Machine

/-- The tag is where the fingerprint begins (R93). -/
theorem tag12_append_drop_fingerprint (f : Fingerprint) (c d : List Byte) :
    tag12 f c d ++ (fingerprint f c d).drop 12 = fingerprint f c d :=
  List.take_append_drop 12 (fingerprint f c d)

/-- Sequences of one length are equal when they agree at every index below it; the default of `getD` is not reached. -/
theorem eq_iff_getD_eq_of_length {a b : List Byte} {n : Nat} (ha : a.length = n) (hb : b.length = n) :
    a = b ↔ ∀ i, i < n → a.getD i 0#8 = b.getD i 0#8 := by
  constructor
  · rintro rfl _ _
    rfl
  · intro h
    refine List.ext_getElem (ha.trans hb.symm) fun i hia hib => ?_
    rw [← List.getD_eq_getElem a 0#8 hia, ← List.getD_eq_getElem b 0#8 hib]
    exact h i (ha ▸ hia)

/-- Settles O7: a fingerprint has twelve bytes or more, so the tag is its first twelve; `tagEq` compares them all. -/
theorem tagIsTwelveBytesComparedWhole : Obligations.TagIsTwelveBytesComparedWhole := by
  unfold Obligations.TagIsTwelveBytesComparedWhole
  refine ⟨fun f c d => ⟨tag12_length f c d, (tag12_append_drop_fingerprint f c d).symm⟩, fun a b ha hb => ?_⟩
  rw [tagEq_eq_true]
  exact eq_iff_getD_eq_of_length ha hb

end Sys2Proof.Machine
end

