-- ==== Sys2Proof/Proofs/CodecOps.lean ====
section
/-!
PROOF. The secret-body codec (spec/41_secret_body_codec.md R111 to R115). The idea: SetRandomNonce and SetTag are one store of
a sequence into PB, so both follow from what a byte range holds inside a stored sequence and outside it.
-/

namespace Sys2Proof.Machine

/-! ### A stored sequence -/

/-- The range a sequence has been stored in holds that sequence. -/
theorem State.bytes_setBytes_self (s : State) (a : Nat) (v : List Byte) :
    (s.setPb (Memory.setBytes s.pb a v)).bytes a v.length = v := by
  apply State.bytes_eq_of
  intro i hi
  rw [State.byteAt_setBytes, if_pos (by omega), Nat.add_sub_cancel_left]

/-- A byte below or above the range a sequence is stored in keeps its value. -/
theorem State.byteAt_setBytes_outside (s : State) {a x : Nat} (v : List Byte) (hx : x < a ∨ a + v.length ≤ x) :
    (s.setPb (Memory.setBytes s.pb a v)).byteAt x = s.byteAt x := by
  rw [State.byteAt_setBytes, if_neg (by omega)]

/-! ### Views -/

theorem View.elen_le_vlen (v : View) : v.elen ≤ v.vlen := by
  unfold View.elen
  split
  · exact Nat.sub_le v.vlen 12
  · exact Nat.le_refl v.vlen

/-- The encryption region is empty when the tag region leaves it no byte (R111, R112). -/
theorem View.elen_eq_zero {n : Nat} {tp : Bool} (h : n ≤ if tp then 12 else 0) : View.elen ⟨n, tp⟩ = 0 := by
  cases tp
  case false => exact Nat.le_zero.mp h
  case true => exact Nat.sub_eq_zero_of_le h

/-- No view is built over an empty encryption region (R111); a body too short for its tag is such a case. -/
theorem newView_raised {n : Nat} {tp : Bool} (h : n ≤ if tp then 12 else 0) :
    newView n tp = .raised .malformedBody := by
  rw [newView, if_pos (View.elen_eq_zero h), ite_self]

theorem getTag_raised {v : View} (htp : v.tp = false) (s : State) : getTag v s = .raised .malformedBody := by
  simp [getTag, htp]

theorem setTag_raised {v : View} (htp : v.tp = false) (tag : List Byte) (s : State) :
    setTag v tag s = .raised .malformedBody := by
  simp [setTag, htp]

theorem setRandomNonce_refused {v : View} (h : v.elen < 4) (x : BitVec 32) (s : State) :
    setRandomNonce v x s = .refused (.nonceRegionTooShort v.elen) :=
  if_pos h

/-! ### The statements -/

/-- Settles O8: a body longer than its tag has a view; any other body has an empty encryption region. -/
theorem newViewFailsOnShortOrEmptyBodies : Obligations.NewViewFailsOnShortOrEmptyBodies := by
  unfold Obligations.NewViewFailsOnShortOrEmptyBodies
  exact fun n tp => ⟨newView_ok, newView_raised⟩

/-- Settles O9: on four bytes or more SetRandomNonce is one store of `be32 x` that ends where the encryption region ends. -/
theorem nonceGoesToTheEndOfTheRegion : Obligations.NonceGoesToTheEndOfTheRegion := by
  unfold Obligations.NonceGoesToTheEndOfTheRegion
  intro v x s
  refine ⟨fun hshort => setRandomNonce_refused hshort x s, fun h4 hcap => ?_⟩
  refine ⟨_, setRandomNonce_ok h4 (v.elen_le_vlen.trans hcap), rfl, ?_, fun a ha => ?_⟩
  · exact s.bytes_setBytes_self (v.elen - 4) (be32 x)
  · apply State.byteAt_setBytes_outside
    rw [be32_length]
    omega

/-- Settles O10: with a tag, SetTag is one store of the twelve bytes that end the view, and GetTag reads them back; without
a tag both answer the error of their other branch. -/
theorem tagRegionIsTheEndOfTheView : Obligations.TagRegionIsTheEndOfTheView := by
  unfold Obligations.TagRegionIsTheEndOfTheView
  intro n s tag
  refine ⟨getTag_raised rfl s, setTag_raised rfl tag s, fun hn hcap htag => ⟨getTag_ok rfl hn hcap, ?_⟩⟩
  refine ⟨_, setTag_ok rfl hn hcap htag, rfl, ?_, fun a ha => ?_⟩
  · have hback : (s.setPb (Memory.setBytes s.pb (n - 12) tag)).bytes (n - 12) 12 = tag :=
      htag ▸ s.bytes_setBytes_self (n - 12) tag
    rw [getTag_ok rfl hn hcap, hback]
  · apply State.byteAt_setBytes_outside
    rw [htag]
    show a < n - 12 ∨ n - 12 + 12 ≤ a
    omega

end Sys2Proof.Machine
end

