-- ==== Sys2Proof/Proofs/AesField.lean ====
section
/-!
PROOF. The field arithmetic and the S-box (spec/42_aes_block_cipher.md R132 to R134). The idea: `gmul a b` is a sum of
`xtime` powers of `a`, so every additive map that commutes with `xtime` acts on `a` alone. Commutativity follows from this and
`gmul 1 b = b`, and associativity from commutativity. The inverses are read off the S-box table by undoing `aff`; only that
each of them is an inverse is checked byte by byte, and that there is no other follows from the laws.
-/

namespace Sys2Proof.Machine

/-- A property of all bytes is one of the numbers below 256; in this form the kernel can check it on numerals. -/
theorem byte_forall {p : Byte → Prop} (h : ∀ n, n < 256 → p (BitVec.ofNat 8 n)) (a : Byte) : p a := by
  simpa using h a.toNat a.isLt

/-! ### `gmul` as a sum of `xtime` powers -/

theorem xtimes_eq_iterate (i : Nat) (a : Byte) : xtimes i a = xtime^[i] a := by
  induction i with
  | zero => rfl
  | succ i ih => rw [xtimes_succ, ih, Function.iterate_succ_apply']

theorem gmulBits_succ (n : Nat) (a b : Byte) :
    gmulBits (n + 1) a b = gmulBits n a b ^^^ if b.getLsbD n then xtimes n a else 0x00#8 := by
  cases h : b.getLsbD n <;> simp [gmulBits, h]

/-- The sum over the set bits, as R132 writes it. -/
theorem gmulBits_eq_foldl (n : Nat) (a b : Byte) :
    gmulBits n a b =
      (((List.range n).filter fun i => b.getLsbD i).map fun i => xtime^[i] a).foldl (· ^^^ ·) 0x00#8 := by
  induction n with
  | zero => rfl
  | succ n ih =>
    rw [gmulBits_succ, ih, xtimes_eq_iterate, List.range_succ, List.filter_append]
    cases h : b.getLsbD n <;> simp [h]

/-! ### The ring laws -/

@[simp] theorem gmul_zero_right (a : Byte) : gmul a 0x00#8 = 0x00#8 := by
  simp [gmul, gmulBits]

@[simp] theorem gmul_one_right (a : Byte) : gmul a 0x01#8 = a := by
  simp [gmul, gmulBits]

/-- The eight `xtime` powers of 1 are the eight single bits, so a byte is the sum of those its bits select. -/
@[simp] theorem gmul_one_left (b : Byte) : gmul 0x01#8 b = b := by
  revert b
  exact byte_forall (by decide +kernel)

/-- An additive map that commutes with `xtime` can be moved from a product to its left factor. -/
theorem map_gmul {f : Byte → Byte} (hxor : ∀ a b, f (a ^^^ b) = f a ^^^ f b) (hxtime : ∀ a, f (xtime a) = xtime (f a))
    (a b : Byte) : f (gmul a b) = gmul (f a) b := by
  have hzero : f 0x00#8 = 0x00#8 := by simpa using hxor 0x00#8 0x00#8
  have hxtimes (i : Nat) : f (xtimes i a) = xtimes i (f a) := by
    induction i with
    | zero => rfl
    | succ i ih => rw [xtimes_succ, hxtime, ih, xtimes_succ]
  have hbits (n : Nat) : f (gmulBits n a b) = gmulBits n (f a) b := by
    induction n with
    | zero => exact hzero
    | succ n ih => rw [gmulBits_succ, gmulBits_succ, hxor, ih, apply_ite f, hxtimes, hzero]
  exact hbits 8

theorem gmul_xtime_left (a b : Byte) : gmul (xtime a) b = xtime (gmul a b) :=
  (map_gmul xtime_xor (fun _ => rfl) a b).symm

theorem gmul_xor_left (a b c : Byte) : gmul (a ^^^ b) c = gmul a c ^^^ gmul b c := by
  have hbits (n : Nat) : gmulBits n (a ^^^ b) c = gmulBits n a c ^^^ gmulBits n b c := by
    induction n with
    | zero => simp [gmulBits]
    | succ n ih =>
      rw [gmulBits_succ, gmulBits_succ, gmulBits_succ, ih, xtimes_xor]
      cases c.getLsbD n with
      | false => simp
      | true => simp only [if_true]; ac_rfl
  exact hbits 8

theorem gmul_comm (a b : Byte) : gmul a b = gmul b a := by
  have h := map_gmul (f := fun x => gmul x b) (fun x y => gmul_xor_left x y b) (fun x => gmul_xtime_left x b) 0x01#8 a
  simpa using h

theorem gmul_xor_right (a b c : Byte) : gmul a (b ^^^ c) = gmul a b ^^^ gmul a c := by
  rw [gmul_comm, gmul_xor_left, gmul_comm b, gmul_comm c]

theorem gmul_xtime_right (a b : Byte) : gmul a (xtime b) = xtime (gmul a b) := by
  rw [gmul_comm, gmul_xtime_left, gmul_comm]

theorem gmul_assoc (a b c : Byte) : gmul (gmul a b) c = gmul a (gmul b c) :=
  (map_gmul (gmul_xor_right a) (gmul_xtime_right a) b c).symm

/-! ### The multipliers of the cipher -/

theorem gmul_0x02 (a : Byte) : gmul a 0x02#8 = xtime a := by
  rw [show 0x02#8 = xtime 0x01#8 from rfl, gmul_xtime_right, gmul_one_right]

theorem gmul_0x04 (a : Byte) : gmul a 0x04#8 = xtime (xtime a) := by
  rw [show 0x04#8 = xtime 0x02#8 from rfl, gmul_xtime_right, gmul_0x02]

theorem gmul_0x08 (a : Byte) : gmul a 0x08#8 = xtime (xtime (xtime a)) := by
  rw [show 0x08#8 = xtime 0x04#8 from rfl, gmul_xtime_right, gmul_0x04]

theorem gmul_0x03 (a : Byte) : gmul a 0x03#8 = xtime a ^^^ a := by
  rw [show 0x03#8 = 0x02#8 ^^^ 0x01#8 from rfl, gmul_xor_right, gmul_0x02, gmul_one_right]

theorem gmul_0x09 (a : Byte) : gmul a 0x09#8 = xtime (xtime (xtime a)) ^^^ a := by
  rw [show 0x09#8 = 0x08#8 ^^^ 0x01#8 from rfl, gmul_xor_right, gmul_0x08, gmul_one_right]

theorem gmul_0x0b (a : Byte) : gmul a 0x0b#8 = xtime (xtime (xtime a)) ^^^ xtime a ^^^ a := by
  rw [show 0x0b#8 = 0x08#8 ^^^ 0x03#8 from rfl, gmul_xor_right, gmul_0x08, gmul_0x03, BitVec.xor_assoc]

theorem gmul_0x0d (a : Byte) : gmul a 0x0d#8 = xtime (xtime (xtime a)) ^^^ xtime (xtime a) ^^^ a := by
  rw [show 0x0d#8 = 0x08#8 ^^^ 0x04#8 ^^^ 0x01#8 from rfl, gmul_xor_right, gmul_xor_right, gmul_0x08, gmul_0x04,
    gmul_one_right]

theorem gmul_0x0e (a : Byte) : gmul a 0x0e#8 = xtime (xtime (xtime a)) ^^^ xtime (xtime a) ^^^ xtime a := by
  rw [show 0x0e#8 = 0x08#8 ^^^ 0x04#8 ^^^ 0x02#8 from rfl, gmul_xor_right, gmul_xor_right, gmul_0x08, gmul_0x04,
    gmul_0x02]

/-! ### Inverses -/

/-- The map that undoes `aff`. -/
def invAff (b : Byte) : Byte :=
  rotl8 b 1 ^^^ rotl8 b 3 ^^^ rotl8 b 6 ^^^ 0x05#8

theorem aff_invAff (b : Byte) : aff (invAff b) = b := by
  revert b
  exact byte_forall (by decide +kernel)

/-- The inverse of a byte, zero for zero, as R133 has it in the S-box table under `aff`. -/
def gfInv (a : Byte) : Byte := invAff (sbox a)

theorem gfInv_zero : gfInv 0x00#8 = 0x00#8 := by decide

/-- Each nonzero byte times its inverse is 1; this checks the whole S-box table against the multiplication. -/
theorem gmul_gfInv (a : Byte) : a ≠ 0x00#8 → gmul a (gfInv a) = 0x01#8 := by
  revert a
  exact byte_forall (by decide +kernel)

theorem eq_gfInv_of_gmul_eq_one {a b : Byte} (ha : a ≠ 0x00#8) (hab : gmul a b = 0x01#8) : b = gfInv a := by
  calc
    b = gmul (gmul (gfInv a) a) b := by rw [gmul_comm (gfInv a), gmul_gfInv a ha, gmul_one_left]
    _ = gfInv a := by rw [gmul_assoc, hab, gmul_one_right]

/-- Settles O11: the laws of `gmul` above, with `gfInv` as the inverse. -/
theorem gmulIsFieldMultiplication : Obligations.GmulIsFieldMultiplication := by
  unfold Obligations.GmulIsFieldMultiplication
  refine ⟨fun _ => rfl, gmulBits_eq_foldl 8, gmul_comm, gmul_assoc, gmul_xor_right,
    fun a => ⟨gmul_one_right a, gmul_zero_right a⟩,
    fun a => ⟨gmul_0x02 a, gmul_0x03 a, gmul_0x09 a, gmul_0x0b a, gmul_0x0d a, gmul_0x0e a⟩, ?inverses, ?examples⟩
  case inverses =>
    exact ⟨gfInv, gfInv_zero, fun a ha => ⟨gmul_gfInv a ha, fun c => eq_gfInv_of_gmul_eq_one ha⟩⟩
  case examples => decide +kernel

/-! ### The S-box -/

theorem sbox_eq_aff_gfInv (a : Byte) : sbox a = aff (gfInv a) :=
  (aff_invAff (sbox a)).symm

theorem invSbox_sbox (a : Byte) : invSbox (sbox a) = a := by
  revert a
  exact byte_forall (by decide +kernel)

theorem sbox_injective : Function.Injective sbox :=
  Function.LeftInverse.injective invSbox_sbox

/-- On a finite type a left inverse is an inverse. -/
theorem sbox_invSbox (a : Byte) : sbox (invSbox a) = a :=
  Function.LeftInverse.rightInverse_of_surjective invSbox_sbox (Finite.surjective_of_injective sbox_injective) a

theorem sbox_ne_self (a : Byte) : sbox a ≠ a := by
  revert a
  exact byte_forall (by decide +kernel)

theorem sbox_eq_aff_of_inverse {a b : Byte} (h : gmul a b = 0x01#8 ∨ (a = 0x00#8 ∧ b = 0x00#8)) : sbox a = aff b := by
  obtain hab | ⟨rfl, rfl⟩ := h
  · have ha : a ≠ 0x00#8 := by
      rintro rfl
      rw [gmul_comm, gmul_zero_right] at hab
      exact absurd hab (by decide)
    rw [sbox_eq_aff_gfInv, eq_gfInv_of_gmul_eq_one ha hab]
  · rw [sbox_eq_aff_gfInv, gfInv_zero]

/-- Settles O12: the table agrees with the formula on the field inverse, and the two tables undo each other. -/
theorem sboxIsAffineMapOfInverse : Obligations.SboxIsAffineMapOfInverse := by
  unfold Obligations.SboxIsAffineMapOfInverse
  exact ⟨fun _ => rfl, fun _ _ => sbox_eq_aff_of_inverse,
    fun a => ⟨invSbox_sbox a, sbox_invSbox a, sbox_ne_self a⟩, rfl, rfl, rfl⟩

end Sys2Proof.Machine
end

