-- ==== Sys2Proof/Proofs/ShiftRows.lean ====
section
/-!
PROOF. ShiftRows and InvShiftRows (spec/42_aes_block_cipher.md R137, R144). The idea: with the row and the column fixed, both
sides name one byte of the block.
-/

namespace Sys2Proof.Machine

theorem shiftRows_getD (s : Block) {r c : Nat} (hr : r < 4) (hc : c < 4) :
    (blockBytes (shiftRows s)).getD (r + 4 * c) 0#8 = (blockBytes s).getD (r + 4 * ((c + r) % 4)) 0#8 := by
  interval_cases r <;> interval_cases c <;> rfl

theorem invShiftRows_getD (s : Block) {r c : Nat} (hr : r < 4) (hc : c < 4) :
    (blockBytes (invShiftRows s)).getD (r + 4 * c) 0#8 = (blockBytes s).getD (r + 4 * ((c + 4 - r) % 4)) 0#8 := by
  interval_cases r <;> interval_cases c <;> rfl

theorem invShiftRows_shiftRows (s : Block) : invShiftRows (shiftRows s) = s := rfl

/-- Settles O13: sixteen bytes each way, and every byte comes back to its place. -/
theorem shiftRowsRotatesEachRow : Obligations.ShiftRowsRotatesEachRow := by
  unfold Obligations.ShiftRowsRotatesEachRow
  exact fun s => ⟨fun r c hr hc => ⟨shiftRows_getD s hr hc, invShiftRows_getD s hr hc⟩, invShiftRows_shiftRows s⟩

end Sys2Proof.Machine
end

