-- ==== Sys2Proof/Proofs/KeySchedule.lean ====
section
/-!
PROOF. The key schedule (spec/42_aes_block_cipher.md R140, R141). The idea: the expansion only appends, so a word computed
from the words made so far is also the one computed from the finished schedule.
-/

namespace Sys2Proof.Machine

/-! ### The recurrence -/

/-- The word `W[i]` depends on the words below `i` only. -/
theorem scheduleWord_congr {nk i : Nat} {w v : List Word} (hnk : 0 < nk) (hi : nk ≤ i)
    (h : ∀ j, j < i → w.getD j zeroWord = v.getD j zeroWord) : scheduleWord nk i w = scheduleWord nk i v := by
  rw [scheduleWord, scheduleWord, h (i - nk) (by omega), h (i - 1) (by omega)]

/-- Every word that the expansion adds is the recurrence's word in the finished schedule. -/
theorem expandWords_getD_added {nk n : Nat} {w : List Word} {i : Nat} (hnk : 0 < nk) (hw : nk ≤ w.length)
    (hlo : w.length ≤ i) (hhi : i < w.length + n) :
    (expandWords nk n w).getD i zeroWord = scheduleWord nk i (expandWords nk n w) := by
  induction n generalizing w with
  | zero => omega
  | succ n ih =>
    obtain rfl | hlt := hlo.eq_or_lt
    · have hnew : (expandWords nk (n + 1) w).getD w.length zeroWord = scheduleWord nk w.length w := by
        rw [expandWords, expandWords_getD (by simp)]
        simp
      rw [hnew]
      exact scheduleWord_congr hnk hw fun j hj => (expandWords_getD hj).symm
    · exact ih (by simp; omega) (by simpa using hlt) (by simp; omega)

theorem Key.nk_pos (k : Key) : 0 < Key.nk k := by cases k <;> simp [Key.nk]

theorem Key.nk_le_schedule_length (k : Key) : Key.nk k ≤ 4 * (Key.nr k + 1) := by cases k <;> simp [Key.nk, Key.nr]

/-! ### The schedule of a key -/

theorem keyExpansion_words_length (k : Key) : (keyExpansion k).words.length = 4 * (Key.nr k + 1) := by
  rw [keyExpansion, expandWords_length, Key.words_length, Nat.add_sub_cancel' k.nk_le_schedule_length]

theorem keyExpansion_getD_of_lt_nk (k : Key) {i : Nat} (hi : i < Key.nk k) :
    (keyExpansion k).words.getD i zeroWord = (Key.words k).getD i zeroWord :=
  expandWords_getD (by simpa using hi)

theorem keyExpansion_getD_of_nk_le (k : Key) {i : Nat} (hlo : Key.nk k ≤ i) (hhi : i < 4 * (Key.nr k + 1)) :
    (keyExpansion k).words.getD i zeroWord = scheduleWord (Key.nk k) i (keyExpansion k).words :=
  expandWords_getD_added k.nk_pos (by simp) (by simpa using hlo) (by simp; omega)

/-- The first four words of an AES-128 schedule are the key, four bytes to a word. -/
theorem wordBytes_keyExpansion_aes128 (k : Block) {i : Nat} (hi : i < 4) :
    wordBytes ((keyExpansion (.aes128 k)).words.getD i zeroWord) = ((blockBytes k).drop (4 * i)).take 4 := by
  rw [keyExpansion_getD_of_lt_nk _ hi]
  interval_cases i <;> rfl

/-- The first eight words of an AES-256 schedule are the key, four bytes to a word. -/
theorem wordBytes_keyExpansion_aes256 (lo hi : Block) {i : Nat} (h : i < 8) :
    wordBytes ((keyExpansion (.aes256 lo hi)).words.getD i zeroWord) =
      ((blockBytes lo ++ blockBytes hi).drop (4 * i)).take 4 := by
  rw [keyExpansion_getD_of_lt_nk _ h]
  interval_cases i <;> rfl

/-- The recurrence of the round constants (R140). -/
theorem rcon_succ {i : Nat} (hi : 1 ≤ i) : rcon (i + 1) = ⟨xtime (rcon i).b0, 0#8, 0#8, 0#8⟩ := by
  obtain ⟨j, rfl⟩ := Nat.exists_eq_add_of_le' hi
  rfl

/-- Settles O15: the words of the key are kept, and each added word is the recurrence's in the finished schedule. -/
theorem keyScheduleFollowsItsRecurrence : Obligations.KeyScheduleFollowsItsRecurrence := by
  unfold Obligations.KeyScheduleFollowsItsRecurrence
  exact ⟨fun k => ⟨keyExpansion_words_length _, rfl, rfl, fun i => wordBytes_keyExpansion_aes128 k⟩,
    fun lo hi => ⟨keyExpansion_words_length _, rfl, rfl, fun i => wordBytes_keyExpansion_aes256 lo hi⟩,
    fun w v => ⟨rfl, rfl, rfl⟩, ⟨rfl, fun i => rcon_succ⟩, fun k i => keyExpansion_getD_of_nk_le k⟩

end Sys2Proof.Machine
end

