-- ==== Sys2Proof/Proofs/Padding.lean ====
section
/-!
PROOF. The block padding (spec/43_cbc_pkcs7.md R161, R165, R166). The idea: on a sequence of a block or more, the answers of
`Unpad` are exactly the ways to read the sequence as a rest followed by `p` bytes of value `p`; `Pad` builds one such
sequence, and the lengths of `CbcDecUnpad` are those of the rest.
-/

namespace Sys2Proof.Machine

/-! ### Padded sequences -/

/-- A count of padding bytes survives as the value of a byte. -/
theorem toNat_ofNat_padCount {p : Nat} (hp : p ≤ 16) : (BitVec.ofNat 8 p).toNat = p := by
  rw [BitVec.toNat_ofNat]
  omega

theorem getLast?_append_rep (r : List Byte) (v : Byte) {n : Nat} (hn : 1 ≤ n) : (r ++ rep v n).getLast? = some v := by
  rw [rep, List.getLast?_append, List.getLast?_replicate, if_neg (by omega), Option.some_or]

/-- Valid padding is taken off (R165). -/
theorem unpad_append_rep (r : List Byte) {p : Nat} (hlo : 1 ≤ p) (hhi : p ≤ 16) :
    unpad (r ++ rep (BitVec.ofNat 8 p) p) = some r := by
  have hrest : (r ++ rep (BitVec.ofNat 8 p) p).length - p = r.length := by simp
  refine unpad_eq_some.mpr ⟨BitVec.ofNat 8 p, getLast?_append_rep r _ hlo, ?_⟩
  rw [toNat_ofNat_padCount hhi, hrest, List.drop_left, List.take_left]
  exact ⟨hlo, hhi, fun b hb => List.eq_of_mem_replicate hb, rfl⟩

/-- Where `Unpad` gives a rest, valid padding follows the rest (R165). In a sequence shorter than a block the last byte may
ask for more bytes than there are, so the bound is needed. -/
theorem eq_append_rep_of_unpad {x r : List Byte} (hx : 16 ≤ x.length) (h : unpad x = some r) :
    ∃ p, 1 ≤ p ∧ p ≤ 16 ∧ x = r ++ rep (BitVec.ofNat 8 p) p := by
  obtain ⟨v, -, hlo, hhi, hall, rfl⟩ := unpad_eq_some.mp h
  have hdrop : x.drop (x.length - v.toNat) = rep v v.toNat :=
    List.eq_replicate_iff.mpr ⟨by rw [List.length_drop]; omega, hall⟩
  refine ⟨v.toNat, hlo, hhi, ?_⟩
  rw [BitVec.ofNat_toNat, BitVec.setWidth_eq, ← hdrop, List.take_append_drop]

theorem unpad_pad (m : List Byte) : unpad (pad m) = some m :=
  unpad_append_rep m (by omega) (by omega)

/-- `Unpad` drops 1 to 16 bytes of a sequence of a block or more. -/
theorem unpad_length_bounds {x r : List Byte} (hx : 16 ≤ x.length) (h : unpad x = some r) :
    x.length ≤ r.length + 16 ∧ r.length + 1 ≤ x.length := by
  obtain ⟨p, hlo, hhi, rfl⟩ := eq_append_rep_of_unpad hx h
  rw [List.length_append, rep_length]
  omega

/-! ### The lengths that `CbcDecUnpad` checks -/

theorem cbcDecUnpad_of_bad_length (w : Schedule) (iv : Block) {c : List Byte} (h : c.length = 0 ∨ c.length % 16 ≠ 0) :
    cbcDecUnpad w iv c = none := if_pos h

theorem cbcDecUnpad_of_blocks (w : Schedule) (iv : Block) {c : List Byte} (h0 : c.length ≠ 0) (h16 : c.length % 16 = 0) :
    cbcDecUnpad w iv c = unpad (cbcDec w iv c) := if_neg (by omega)

/-- The plaintext is shorter than its ciphertext by 1 to 16 bytes (R166). -/
theorem cbcDecUnpad_length_bounds {w : Schedule} {iv : Block} {c r : List Byte} (h : cbcDecUnpad w iv c = some r) :
    c.length ≤ r.length + 16 ∧ r.length + 1 ≤ c.length := by
  obtain ⟨h0, h16, hu⟩ := cbcDecUnpad_eq_some.mp h
  have hlen := cbcDec_length w iv h16
  have hbounds := unpad_length_bounds (by omega) hu
  rwa [hlen] at hbounds

/-! ### The obligations -/

/-- Settles O17: `Pad` appends the count `16 - |m| mod 16`, which is valid padding. -/
theorem paddingIsRemovedByUnpad : Obligations.PaddingIsRemovedByUnpad := by
  unfold Obligations.PaddingIsRemovedByUnpad
  intro m
  refine ⟨unpad_pad m, ?_, 16 - m.length % 16, by omega, by omega, by omega, rfl⟩
  rw [pad_length, roundUp16]
  omega

/-- Settles O18: a positive multiple of 16 is a block or more, so an accepted sequence holds all the bytes its last byte
asks for. -/
theorem unpadAcceptsExactlyValidPadding : Obligations.UnpadAcceptsExactlyValidPadding := by
  unfold Obligations.UnpadAcceptsExactlyValidPadding
  refine ⟨fun x r h0 h16 => ⟨eq_append_rep_of_unpad (by omega), ?_⟩, unpad_pad⟩
  rintro ⟨p, hlo, hhi, rfl⟩
  exact unpad_append_rep r hlo hhi

/-- Settles O21: the length test is the first branch, and `CbcDec` keeps the length that `Unpad` then shortens. -/
theorem cbcDecUnpadChecksLengths : Obligations.CbcDecUnpadChecksLengths := by
  unfold Obligations.CbcDecUnpadChecksLengths
  exact fun w iv c => ⟨cbcDecUnpad_of_bad_length w iv, cbcDecUnpad_of_blocks w iv, fun _ => cbcDecUnpad_length_bounds⟩

end Sys2Proof.Machine
end

