-- ==== Sys2Proof/Proofs/Decrypt.lean ====
section
/-!
PROOF. The DECRYPT command (spec/44_decrypt.md R180 to R188). The idea: each statement about an error is one answer of
`execDecrypt`, selected by the tests before it; once the tag matches, only success and DecryptFailure are left; and every
answer but success is `State.complete` on the state at issue.
-/

namespace Sys2Proof.Machine

/-! ### The answers behind the tag test -/

/-- With a fingerprint function, step 4 is the comparison of the stored tag (R184). -/
theorem tagMatches_iff_of_fp {s : State} {f : Fingerprint} (hfp : s.cfg.fp = some f) :
    s.TagMatches ↔ s.storedTag = tag12 f s.c12 s.region := by
  simp [State.TagMatches, hfp]

/-- Behind the tag test DECRYPT completes, with success or with DecryptFailure (R185, R186). -/
theorem execDecrypt_err_of_good_tag {s : State} (he : s.enc = true) (h16 : 16 ≤ s.len) (hc : s.len ≤ s.capacity)
    (ht : s.TagMatches) : ∃ t, execDecrypt s = .next t ∧ (t.err = .success ∨ t.err = .decryptFailure) := by
  by_cases hopen : ∃ r, cbcDecUnpad s.schedule s.iv s.region = some r ∧ 4 ≤ r.length
  · obtain ⟨r, hr, h4⟩ := hopen
    exact ⟨_, execDecrypt_of_opened he h16 hc ht hr h4, .inl rfl⟩
  · have hshort : ∀ r, cbcDecUnpad s.schedule s.iv s.region = some r → r.length < 4 := fun r hr =>
      Nat.lt_of_not_le fun h4 => hopen ⟨r, hr, h4⟩
    exact ⟨_, execDecrypt_of_unopened he h16 hc ht hshort, .inr rfl⟩

/-- A matching tag is never reported as IntegrityFailure (R184). -/
theorem execDecrypt_ne_integrityFailure {s : State} (he : s.enc = true) (h16 : 16 ≤ s.len) (hc : s.len ≤ s.capacity)
    (ht : s.TagMatches) : ∃ t, execDecrypt s = .next t ∧ t.err ≠ .integrityFailure := by
  obtain ⟨t, hrun, herr | herr⟩ := execDecrypt_err_of_good_tag he h16 hc ht
  · exact ⟨t, hrun, by simp [herr]⟩
  · exact ⟨t, hrun, by simp [herr]⟩

/-- A flagged payload of 16 bytes or more passes the length test: no later test answers MalformedPacket (R182). -/
theorem execDecrypt_ne_malformedPacket {s : State} (he : s.enc = true) (h16 : 16 ≤ s.len) (hc : s.len ≤ s.capacity) :
    ∃ t, execDecrypt s = .next t ∧ t.err ≠ .malformedPacket := by
  by_cases ht : s.TagMatches
  · obtain ⟨t, hrun, herr | herr⟩ := execDecrypt_err_of_good_tag he h16 hc ht
    · exact ⟨t, hrun, by simp [herr]⟩
    · exact ⟨t, hrun, by simp [herr]⟩
  · exact ⟨_, execDecrypt_of_bad_tag he h16 hc ht, by simp⟩

/-- The plaintext of the region is shorter than the payload that holds the region. -/
theorem opened_length_lt_len {s : State} {r : List Byte} (hr : cbcDecUnpad s.schedule s.iv s.region = some r) :
    r.length < s.len := by
  have hlt : r.length < s.regionLen := by simpa [State.region] using cbcDecUnpad_length_lt hr
  exact hlt.trans_le (Nat.sub_le _ _)

/-! ### The obligations -/

/-- Settles O24: the test of ENC is the first, and the one answer with success clears ENC. -/
theorem decryptRefusesUnflaggedPackets : Obligations.DecryptRefusesUnflaggedPackets := by
  unfold Obligations.DecryptRefusesUnflaggedPackets
  refine ⟨fun s henc => execDecrypt_of_unflagged henc, fun s t hrun hsuccess => ?_⟩
  obtain ⟨m, -, -, rfl⟩ | ⟨e, he, rfl⟩ := execDecrypt_next hrun
  · exact ⟨rfl, execDecrypt_of_unflagged rfl⟩
  · exact absurd hsuccess he

/-- Settles O25: the length test is the second, and no other test answers MalformedPacket. -/
theorem decryptRefusesShortPayloads : Obligations.DecryptRefusesShortPayloads := by
  unfold Obligations.DecryptRefusesShortPayloads
  exact fun s he => ⟨execDecrypt_of_short he, execDecrypt_ne_malformedPacket he⟩

/-- Settles O26: a mismatch is answered before the region is opened, and behind the test no answer is
IntegrityFailure. -/
theorem decryptChecksTheTagFirst : Obligations.DecryptChecksTheTagFirst := by
  unfold Obligations.DecryptChecksTheTagFirst
  intro s he h16 hc
  refine ⟨fun f hfp hbad => ?_, fun f hfp hgood => ?_, fun hfp => ?_⟩
  · exact execDecrypt_of_bad_tag he h16 hc (mt (tagMatches_iff_of_fp hfp).mp hbad)
  · exact execDecrypt_ne_integrityFailure he h16 hc ((tagMatches_iff_of_fp hfp).mpr hgood)
  · exact execDecrypt_ne_integrityFailure he h16 hc (by simp [State.TagMatches, hfp])

/-- Settles O28: a plaintext of the region always fits the buffer, so the payload stored is the plaintext without its
nonce. -/
theorem decryptStoresThePlaintext : Obligations.DecryptStoresThePlaintext := by
  unfold Obligations.DecryptStoresThePlaintext
  intro s r he h16 hc ht hr
  refine ⟨fun h4 => ?_, fun hshort => ?_⟩
  · have hlen : (r.take (r.length - 4)).length = r.length - 4 := by simp
    have hlt := opened_length_lt_len hr
    obtain ⟨hplen, hbytes, herr, henc, hbusy, -, -, hout⟩ :=
      decrypted_spec (s := s) (m := r.take (r.length - 4)) (by omega)
    rw [hlen] at hplen hbytes
    exact ⟨_, execDecrypt_of_opened he h16 hc ht hr h4, herr, hbusy, henc, hplen, hbytes, hout⟩
  · refine execDecrypt_of_unopened he h16 hc ht fun r' hr' => ?_
    rwa [← Option.some.inj (hr.symm.trans hr')]

/-- Settles O29: an answer that is not success is `State.complete` on the state at issue. -/
theorem failedDecryptChangesOnlyTheResult : Obligations.FailedDecryptChangesOnlyTheResult := by
  unfold Obligations.FailedDecryptChangesOnlyTheResult
  intro s t hrun hfailed
  obtain ⟨m, -, -, rfl⟩ | ⟨e, -, rfl⟩ := execDecrypt_next hrun
  · exact absurd rfl hfailed
  · rfl

end Sys2Proof.Machine
end

