-- ==== Sys2Proof/Proofs/Invariant.lean ====
section
/-!
PROOF. The invariant of R36 (spec/10_state.md, spec/20_memory.md R51, R52) and what stays inside the buffer. The idea:
all that a command does to PB is to store sequences inside the buffer and to forget bytes, so a property of the memory
that survives these two survives every command; the moves of the host go through the list of their effects.
-/

namespace Sys2Proof.Machine

/-! ### The memory a command leaves -/

/-- What a success without a fingerprint function leaves (R206). -/
theorem encrypted_of_none {s : State} (hfp : s.cfg.fp = none) :
    encrypted s = finishEncrypt (s.afterDraw.setPb (sealedMemory s)) s.cipherLen := by
  simp only [encrypted, hfp]

/-- What a success with a fingerprint function leaves (R206). -/
theorem encrypted_of_some {s : State} {f : Fingerprint} (hfp : s.cfg.fp = some f) :
    encrypted s =
      finishEncrypt (s.afterDraw.setPb (Memory.setBytes (sealedMemory s) s.cipherLen (tag12 f s.c12 s.sealed)))
        (s.cipherLen + 12) := by
  simp only [encrypted, hfp]

theorem sealed_stores_inside {s : State} (h : s.Fits) :
    s.len + (be32 s.draw).length ≤ s.capacity ∧ 0 + s.sealed.length ≤ s.capacity := by
  have hgrown := s.grown_le_of_fits h
  have hfit := s.fits_iff.mp h
  unfold State.grown at hgrown
  rw [be32_length, s.sealed_length]
  omega

/-- What holds of PB, survives every store inside the buffer and every forgetting, holds of PB after a successful
ENCRYPT. -/
theorem encrypted_pb_induction {s : State} {P : Memory → Prop} (hfits : s.Fits)
    (hstore : ∀ m a v, a + v.length ≤ s.capacity → P m → P (Memory.setBytes m a v))
    (hforget : ∀ m k, P m → P (Memory.keepBelow m k)) (h : P s.pb) : P (encrypted s).pb := by
  obtain ⟨hnonce, hcipher⟩ := sealed_stores_inside hfits
  have hsealed : P (sealedMemory s) := hstore _ _ _ hcipher (hstore _ _ _ hnonce h)
  have hfit := s.fits_iff.mp hfits
  cases hfp : s.cfg.fp with
  | none =>
    rw [encrypted_of_none hfp]
    exact hforget _ _ hsealed
  | some f =>
    rw [State.tagLen_some hfp] at hfit
    rw [encrypted_of_some hfp]
    exact hforget _ _ (hstore _ _ _ (by simpa using hfit) hsealed)

/-- What holds of PB and of the empty memory, survives every store inside the buffer and every forgetting, survives
every command (R51, R52). -/
theorem exec_pb_induction {i : Instr} {s t : State} {P : Memory → Prop} (hrun : exec i s = .next t) (hempty : P [])
    (hstore : ∀ m a v, a + v.length ≤ s.capacity → P m → P (Memory.setBytes m a v))
    (hforget : ∀ m k, P m → P (Memory.keepBelow m k)) (h : P s.pb) : P t.pb := by
  cases i with
  | encrypt =>
    obtain ⟨-, rfl⟩ | ⟨-, -, e, -, rfl⟩ | ⟨hfits, rfl⟩ := execEncrypt_next hrun
    · exact h
    · exact hempty
    · exact encrypted_pb_induction hfits hstore hforget h
  | decrypt =>
    obtain ⟨m, -, hm, rfl⟩ | ⟨e, -, rfl⟩ := execDecrypt_next hrun
    · exact hforget _ _ (hstore _ _ _ (by simpa using hm) h)
    · exact h

theorem exec_wf {i : Instr} {s t : State} (hrun : exec i s = .next t) (h : Memory.wf s.pb = true) :
    Memory.wf t.pb = true :=
  exec_pb_induction (P := fun m => Memory.wf m = true) hrun rfl (fun _ a v _ => Memory.wf_setBytes a v)
    (fun _ k => Memory.wf_keepBelow k) h

theorem exec_capacity {i : Instr} {s t : State} (hrun : exec i s = .next t) : t.capacity = s.capacity :=
  (exec_next hrun).1.capacity

theorem exec_below {i : Instr} {s t : State} (hrun : exec i s = .next t) (h : Memory.below s.pb s.capacity = true) :
    Memory.below t.pb t.capacity = true := by
  rw [exec_capacity hrun]
  exact exec_pb_induction (P := fun m => Memory.below m s.capacity = true) hrun rfl
    (fun _ _ v hv hm => Memory.below_setBytes v hm hv) (fun _ j => Memory.below_keepBelow j) h

/-- A command leaves a length inside the buffer: the one at issue, the free one of a failure, or that of what it
stored. -/
theorem exec_len_le {i : Instr} {s t : State} (hrun : exec i s = .next t) (h : s.len ≤ s.capacity) :
    t.len ≤ t.capacity := by
  rw [exec_capacity hrun]
  cases i with
  | encrypt =>
    obtain ⟨-, rfl⟩ | ⟨-, -, e, -, rfl⟩ | ⟨hfits, rfl⟩ := execEncrypt_next hrun
    · exact h
    · exact s.afterDraw.spoil_len_le
    · rw [(encrypted_spec hfits).1]
      exact s.fits_iff.mp hfits
  | decrypt =>
    obtain ⟨m, -, hm, rfl⟩ | ⟨e, -, rfl⟩ := execDecrypt_next hrun
    · rw [(decrypted_spec hm).1]
      exact hm
    · exact h

/-! ### The invariant -/

theorem exec_inv {i : Instr} {s t : State} (hrun : exec i s = .next t) (h : s.Inv) : t.Inv := by
  obtain ⟨hlen, hwf, hbelow⟩ := h
  exact ⟨exec_len_le hrun hlen, exec_wf hrun hwf, exec_below hrun hbelow⟩

/-- A write of PLEN is bounded by PCAP and a write of a payload byte by its address; no other effect of the host touches
what the invariant speaks of. -/
theorem HostEffect.inv {s t : State} (he : HostEffect s t) (h : s.Inv) : t.Inv := by
  obtain ⟨hlen, hwf, hbelow⟩ := h
  cases he with
  | plen n hn => exact ⟨(State.setPlen_len hn).trans_le hn, hwf, hbelow⟩
  | byte a b ha => exact ⟨hlen, Memory.wf_set a b hwf, Memory.below_set b hbelow ha⟩
  | issue c => exact ⟨hlen, hwf, hbelow⟩
  | hsrc v => exact ⟨hlen, hwf, hbelow⟩
  | hdst v => exact ⟨hlen, hwf, hbelow⟩
  | hproto v => exact ⟨hlen, hwf, hbelow⟩
  | enc b => exact ⟨hlen, hwf, hbelow⟩
  | read r => exact ⟨hlen, hwf, hbelow⟩

/-- No effect of the host is on the capacity, the configuration or ERR (R20, R231). -/
theorem HostEffect.keeps {s t : State} (he : HostEffect s t) : t.pcap = s.pcap ∧ t.cfg = s.cfg ∧ t.err = s.err := by
  cases he <;> exact ⟨rfl, rfl, rfl⟩

theorem State.afterReset_inv (s : State) (c : Sampled) : (s.afterReset c).Inv := ⟨Nat.zero_le _, rfl, rfl⟩

theorem step_inv {s t : State} (hstep : step s = .next t) (h : s.Inv) : t.Inv := by
  obtain rfl | ⟨-, -, ⟨i, -, hrun⟩ | rfl⟩ | ⟨-, op, rest, -, ⟨c, -, rfl⟩ | ⟨-, r, rfl⟩ | heffect⟩ := step_next hstep
  · exact h
  · exact exec_inv hrun h
  · exact h
  · exact State.afterReset_inv _ c
  · exact h
  · exact heffect.inv h

/-! ### The obligations -/

/-- Settles O48: the cases of a step are an idle turn, a command, a reserved code, a reset, a poll and one effect of the
host, and each keeps the invariant. -/
theorem stepKeepsTheInvariant : Obligations.StepKeepsTheInvariant := by
  unfold Obligations.StepKeepsTheInvariant
  exact fun s t h hstep => step_inv hstep h

/-- Settles O44: a command completes when PLEN is inside the buffer, and stores nothing outside. -/
theorem commandsStayInsideTheBuffer : Obligations.CommandsStayInsideTheBuffer := by
  unfold Obligations.CommandsStayInsideTheBuffer
  intro s i hlen
  obtain ⟨t, hrun⟩ := exec_completes i hlen
  exact ⟨t, hrun, (exec_next hrun).2, exec_len_le hrun hlen, exec_below hrun⟩

/-- Settles O46: the state after reset holds the values of R35. -/
theorem resetLeavesTheControlStateClear : Obligations.ResetLeavesTheControlStateClear := by
  unfold Obligations.ResetLeavesTheControlStateClear
  exact ⟨rfl, rfl, rfl, rfl⟩

/-- Settles O47: a length of zero and no listed byte. -/
theorem resetMeetsTheInvariant : Obligations.ResetMeetsTheInvariant := by
  unfold Obligations.ResetMeetsTheInvariant
  exact ⟨Nat.zero_le _, rfl, rfl⟩

/-- Settles O49: a command leaves alone what no command writes, and the host's only move on the configuration is
reset. -/
theorem onlyResetChangesTheConfiguration : Obligations.OnlyResetChangesTheConfiguration := by
  unfold Obligations.OnlyResetChangesTheConfiguration
  intro s t hstep
  obtain rfl | ⟨-, -, ⟨i, -, hrun⟩ | rfl⟩ | ⟨hturn, op, rest, hscript, ⟨c, rfl, rfl⟩ | ⟨-, r, rfl⟩ | heffect⟩ :=
    step_next hstep
  · exact ⟨rfl, .inl rfl⟩
  · obtain ⟨⟨hpcap, hcfg, -⟩, -⟩ := exec_next hrun
    exact ⟨hpcap, .inl hcfg⟩
  · exact ⟨rfl, .inl rfl⟩
  · exact ⟨rfl, .inr ⟨hturn, c, rest, hscript, rfl⟩⟩
  · exact ⟨rfl, .inl rfl⟩
  · obtain ⟨hpcap, hcfg, -⟩ := heffect.keeps
    exact ⟨hpcap, .inl hcfg⟩

/-- Settles O58: no effect of the host is on ERR, and the engine's turn writes it only when a command is in flight. -/
theorem resultStaysUntilTheNextCompletion : Obligations.ResultStaysUntilTheNextCompletion := by
  unfold Obligations.ResultStaysUntilTheNextCompletion
  intro s t hstep hchanged
  obtain rfl | ⟨hturn, hbusy, -⟩ | ⟨hturn, op, rest, hscript, ⟨c, rfl, -⟩ | ⟨-, r, rfl⟩ | heffect⟩ := step_next hstep
  · exact absurd rfl hchanged
  · exact .inl ⟨hturn, hbusy⟩
  · exact .inr ⟨hturn, c, rest, hscript⟩
  · exact absurd rfl hchanged
  · obtain ⟨-, -, hkept⟩ := heffect.keeps
    exact absurd hkept hchanged

end Sys2Proof.Machine
end

