-- ==== Sys2Proof/Proofs/Turns.lean ====
section
/-!
PROOF. Command words and the turns of the two agents (spec/10_state.md R31, R35, spec/30_encoding.md R70 to R72, R75,
spec/70_reset_and_hazards.md R250, R260). The idea: at the host's turn the step is the move at the head of its
program, at the engine's turn it is the command that CMDL selects, and every step uses up one of the turns laid down.
-/

namespace Sys2Proof.Machine

/-! ### Command words -/

/-- What the laws say of each command's word, for both (R71). -/
theorem commandWord_statement (i : Instr) : Laws.CommandWord.Statement i :=
  match i with
  | .encrypt => Laws.CommandWord.encrypt
  | .decrypt => Laws.CommandWord.decrypt

/-- A code that R71 does not assign is reserved (R72). -/
theorem decode_reserved {w : Byte} (h1 : w ≠ 0x01#8) (h2 : w ≠ 0x02#8) : decode w = .error (.reservedCode w) := by
  rw [commandCodesAreComparedWhole w, if_neg h1, if_neg h2]

theorem eq_encode_of_decode {w : Byte} {i : Instr} (h : decode w = .ok i) : w = encode i := by
  by_cases h1 : w = 0x01#8
  · subst h1
    exact congrArg encode (Except.ok.inj h)
  by_cases h2 : w = 0x02#8
  · subst h2
    exact congrArg encode (Except.ok.inj h)
  · rw [decode_reserved h1 h2] at h
    cases h

theorem commandWordWf_iff (w : Byte) : commandWordWf w = true ↔ ∃ i, w = encode i := by
  constructor
  · intro h
    simp only [commandWordWf, Bool.or_eq_true, beq_iff_eq] at h
    exact h.elim (fun h1 => ⟨.encrypt, h1⟩) fun h2 => ⟨.decrypt, h2⟩
  · rintro ⟨i, rfl⟩
    obtain ⟨-, hword, -⟩ := commandWord_statement i
    exact hword

/-- Settles O2: the two words are the two assigned codes, and every other word is reserved. -/
theorem encodedCommandsDecodeBack : Obligations.EncodedCommandsDecodeBack := by
  unfold Obligations.EncodedCommandsDecodeBack
  intro i w
  obtain ⟨hwf, -, hdecode⟩ := commandWord_statement i
  refine ⟨hwf, ⟨eq_encode_of_decode, ?_⟩, commandWordWf_iff w⟩
  rintro rfl
  exact hdecode

/-! ### Whose turn it is -/

/-- At the host's turn the step is the first move of its program. -/
theorem step_hostMove {s : State} {op : HostOp} {rest : List HostOp} (hturn : s.turn = .host)
    (hscript : s.script = op :: rest) : step s = hostMove op rest s.atTurn := by
  rw [step_host hturn, hostStep_cons (s := s.atTurn) hscript]

/-- At the engine's turn with a command in flight the step is its completion. -/
theorem step_completion {s : State} (hturn : s.turn = .engine) (hbusy : s.busy = true) :
    step s = completion s.atTurn := by
  rw [step_engine hturn, engineStep_busy (s := s.atTurn) hbusy]

/-- A write of CMD while BUSY = 0 issues the command of its low byte (R31). -/
theorem step_issue {s : State} {v : BitVec 32} {rest : List HostOp} (hturn : s.turn = .host) (hbusy : s.busy = false)
    (hscript : s.script = .wr 0 v :: rest) :
    step s = .next { s.atTurn with script := rest, cmdl := v.extractLsb' 0 8, busy := true } := by
  rw [step_hostMove hturn hscript, hostMove, hostWrite]
  simp only [regOfNumber, State.withScript_busy, State.atTurn_busy, hbusy, Bool.false_eq_true, if_false]
  rfl

theorem step_reset {s : State} {c : Sampled} {rest : List HostOp} (hturn : s.turn = .host)
    (hscript : s.script = .reset c :: rest) : step s = .next ((s.atTurn.withScript rest).afterReset c) :=
  step_hostMove hturn hscript

/-- A poll of WAIT that finds the engine free reads STATUS and takes the line (R75). -/
theorem step_wait_free {s : State} {rest : List HostOp} (hturn : s.turn = .host) (hbusy : s.busy = false)
    (hscript : s.script = .wait :: rest) :
    step s = .next { s.atTurn with script := rest, reads := .reg 1 s.statusWord :: s.reads } := by
  rw [step_hostMove hturn hscript, hostMove, hostWait, State.atTurn_busy, hbusy]
  rfl

/-- A poll of WAIT that finds the engine busy reads STATUS and leaves the line (R75). -/
theorem step_wait_busy {s : State} {rest : List HostOp} (hturn : s.turn = .host) (hbusy : s.busy = true)
    (hscript : s.script = .wait :: rest) :
    step s = .next { s.atTurn with reads := .reg 1 s.statusWord :: s.reads } := by
  rw [step_hostMove hturn hscript, hostMove, hostWait, State.atTurn_busy, hbusy]
  rfl

/-- Settles O3: the engine's step is the completion step, and a decoded CMDL is run by `exec`. -/
theorem stepRunsTheDecodedCommand : Obligations.StepRunsTheDecodedCommand := by
  unfold Obligations.StepRunsTheDecodedCommand
  intro s i hturn hbusy hdecode
  rw [step_completion hturn hbusy, completion_of_ok (s := s.atTurn) hdecode]

/-- Settles O4: the issue does not look at the code, and the completion step finds no command for it. -/
theorem reservedCodeCompletesAsIllegalCommand : Obligations.ReservedCodeCompletesAsIllegalCommand := by
  unfold Obligations.ReservedCodeCompletesAsIllegalCommand
  refine ⟨fun s v rest hturn hbusy hscript _ _ => step_issue hturn hbusy hscript, fun s hturn hbusy h1 h2 => ?_, rfl⟩
  rw [step_completion hturn hbusy, completion_of_error (s := s.atTurn) (decode_reserved h1 h2)]
  rfl

/-- Settles O50: reset does not look at BUSY. -/
theorem resetSamplesTheConfiguration : Obligations.ResetSamplesTheConfiguration := by
  unfold Obligations.ResetSamplesTheConfiguration
  exact fun s c rest hturn hscript => ⟨_, step_reset hturn hscript, rfl, rfl, rfl, rfl, rfl, rfl, rfl⟩

/-- Settles O52: the write of CMD is the issue. -/
theorem issueLatchesTheCode : Obligations.IssueLatchesTheCode := by
  unfold Obligations.IssueLatchesTheCode
  exact fun s v rest => step_issue

end Sys2Proof.Machine
end

