-- ==== Sys2Proof/Proofs/Wait.lean ====
section
/-!
PROOF. WAIT ends (spec/70_reset_and_hazards.md R260, spec/30_encoding.md R75). The idea: each step uses up a turn that
is laid down and leaves WAIT at the head of the program until the host polls a free engine; when none is left, the
engine completes and the host polls.
-/

namespace Sys2Proof.Machine

/-- The host's WAIT is served from `s`: some run of the machine ends with BUSY = 0, the line taken, and STATUS read
last. -/
def WaitServed (s : State) (rest : List HostOp) : Prop :=
  ∃ k t, Host.Core.run Sys2Proof.core k s = .next t ∧ t.busy = false ∧ t.script = rest ∧
    ∃ before, t.reads = .reg 1 t.statusWord :: before

/-- A run of one step more goes on from the state the step answers. -/
theorem run_succ_of_step {M : Host.Core} {s t : M.State} (hstep : M.step s = .next t) (k : Nat) :
    M.run (k + 1) s = M.run k t := by
  rw [Host.Core.run, hstep]

theorem WaitServed.of_step {s t : State} {rest : List HostOp} (hstep : step s = .next t) (h : WaitServed t rest) :
    WaitServed s rest := by
  obtain ⟨k, u, hrun, hu⟩ := h
  exact ⟨k + 1, u, (run_succ_of_step (M := Sys2Proof.core) hstep k).trans hrun, hu⟩

/-- A poll that finds the engine free takes the line. -/
theorem WaitServed.of_free {s : State} {rest : List HostOp} (hturn : s.turn = .host) (hbusy : s.busy = false)
    (hscript : s.script = .wait :: rest) : WaitServed s rest := by
  exact ⟨1, _, run_succ_of_step (M := Sys2Proof.core) (step_wait_free hturn hbusy hscript) 0, hbusy, rfl, s.reads, rfl⟩

/-- The engine's turn with a command in flight clears BUSY and leaves the host's program and the later turns. -/
theorem step_completes_command {s : State} (hinv : s.Inv) (hturn : s.turn = .engine) (hbusy : s.busy = true) :
    ∃ t, step s = .next t ∧ t.busy = false ∧ t.script = s.script ∧ t.sched = s.sched.tail := by
  rw [step_completion hturn hbusy]
  cases hdecode : decode s.cmdl with
  | ok i =>
    obtain ⟨hlen, -⟩ := hinv
    obtain ⟨t, hrun⟩ := exec_completes i (s := s.atTurn) hlen
    obtain ⟨⟨-, -, -, -, -, -, -, -, -, hsched, hscript, -⟩, hfree⟩ := exec_next hrun
    exact ⟨t, (completion_of_ok (s := s.atTurn) hdecode).trans hrun, hfree, hscript, hsched⟩
  | error r => exact ⟨_, completion_of_error (s := s.atTurn) hdecode, rfl, rfl, rfl⟩

/-- A step that does not serve the WAIT answers a next state with the same program and the turn used up. -/
theorem step_before_wait_served {s : State} {rest : List HostOp} (hinv : s.Inv) (hscript : s.script = .wait :: rest)
    (hnot : ¬ (s.turn = .host ∧ s.busy = false)) :
    ∃ t, step s = .next t ∧ t.script = .wait :: rest ∧ t.sched = s.sched.tail ∧ (s.sched = [] → t.busy = false) := by
  cases hturn : s.turn with
  | engine =>
    cases hbusy : s.busy with
    | true =>
      obtain ⟨t, hstep, hfree, hkept, hsched⟩ := step_completes_command hinv hturn hbusy
      exact ⟨t, hstep, hkept.trans hscript, hsched, fun _ => hfree⟩
    | false =>
      rw [step_engine hturn, engineStep_idle (s := s.atTurn) hbusy]
      exact ⟨_, rfl, hscript, rfl, fun _ => hbusy⟩
  | host =>
    have hbusy : s.busy = true := by simpa [hturn] using hnot
    refine ⟨_, step_wait_busy hturn hbusy hscript, hscript, rfl, fun hnil => ?_⟩
    simp [State.turn, hnil, hbusy] at hturn

/-- From every state that meets the invariant a WAIT is served, whatever turns are laid down. -/
theorem waitServed_of_inv {s : State} {rest : List HostOp} (hinv : s.Inv) (hscript : s.script = .wait :: rest) :
    WaitServed s rest := by
  generalize hsched : s.sched = l
  induction l generalizing s with
  | nil =>
    by_cases hfree : s.turn = .host ∧ s.busy = false
    · exact .of_free hfree.1 hfree.2 hscript
    · obtain ⟨t, hstep, hkept, htail, hidle⟩ := step_before_wait_served hinv hscript hfree
      have hnil : t.sched = [] := by rw [htail, hsched, List.tail_nil]
      have hturn : t.turn = .host := by simp [State.turn, hnil, hidle hsched]
      exact .of_step hstep (.of_free hturn (hidle hsched) hkept)
  | cons a l ih =>
    by_cases hfree : s.turn = .host ∧ s.busy = false
    · exact .of_free hfree.1 hfree.2 hscript
    · obtain ⟨t, hstep, hkept, htail, -⟩ := step_before_wait_served hinv hscript hfree
      exact .of_step hstep (ih (step_inv hstep hinv) hkept (by rw [htail, hsched, List.tail_cons]))

/-- Settles O51: a command in flight is one of the states a WAIT may start from. -/
theorem waitEnds : Obligations.WaitEnds := by
  unfold Obligations.WaitEnds
  exact fun s rest hinv _ hscript => waitServed_of_inv hinv hscript

end Sys2Proof.Machine
end

