-- ==== Sys2Proof/Proofs/HostAccess.lean ====
section
/-!
PROOF. The host's accesses (spec/10_state.md R26, R32, spec/20_memory.md R51, R57, spec/70_reset_and_hazards.md R252).
The idea: an access by register number is an access of the register with that number, so one lemma for a write, one
for a read and one for a number without a register give the outcome of each.
-/

namespace Sys2Proof.Machine

/-! ### Accesses by register number -/

/-- With BUSY = 0 a write by number is the write of the register (R57). -/
theorem step_wr {s : State} {no : Nat} {v : BitVec 32} {rest : List HostOp} {r : Reg} (hturn : s.turn = .host)
    (hbusy : s.busy = false) (hscript : s.script = .wr no v :: rest) (hreg : regOfNumber no = some r) :
    step s = writeReg r v (s.atTurn.withScript rest) := by
  rw [step_hostMove hturn hscript, hostMove, hostWrite, hreg]
  simp only [State.withScript_busy, State.atTurn_busy, hbusy, Bool.false_eq_true, if_false]

theorem step_wr_noSuchRegister {s : State} {no : Nat} {v : BitVec 32} {rest : List HostOp} (hturn : s.turn = .host)
    (hscript : s.script = .wr no v :: rest) (hno : 8 ≤ no) : step s = .refused (.noSuchRegister no) := by
  rw [step_hostMove hturn hscript, hostMove, hostWrite, regOfNumber_none hno]

theorem readReg_withScript_atTurn (r : Reg) (s : State) (rest : List HostOp) :
    readReg r (s.atTurn.withScript rest) = readReg r s := by
  cases r <;> rfl

/-- A read by number records what the register returns; while BUSY = 1 this holds of STATUS (R57, R252). -/
theorem step_rd {s : State} {no : Nat} {rest : List HostOp} {r : Reg} {v : BitVec 32} (hturn : s.turn = .host)
    (hfree : ¬ (s.busy = true ∧ r ≠ .status)) (hscript : s.script = .rd no :: rest) (hreg : regOfNumber no = some r)
    (hread : readReg r s = some v) :
    step s = .next { s.atTurn with script := rest, reads := .reg no v :: s.reads } := by
  rw [step_hostMove hturn hscript, hostMove, hostRead, hreg]
  simp only [State.withScript_busy, State.atTurn_busy, hfree, if_false, readReg_withScript_atTurn, hread]
  rfl

theorem step_rd_writeOnly {s : State} {rest : List HostOp} (hturn : s.turn = .host) (hbusy : s.busy = false)
    (hscript : s.script = .rd 0 :: rest) : step s = .refused (.readOfWriteOnly 0) := by
  rw [step_hostMove hturn hscript, hostMove, hostRead]
  simp [regOfNumber, readReg, hbusy]

theorem step_rd_noSuchRegister {s : State} {no : Nat} {rest : List HostOp} (hturn : s.turn = .host)
    (hscript : s.script = .rd no :: rest) (hno : 8 ≤ no) : step s = .refused (.noSuchRegister no) := by
  rw [step_hostMove hturn hscript, hostMove, hostRead, regOfNumber_none hno]

/-! ### What is refused while BUSY = 1 -/

theorem hostWrite_refused_of_busy {s : State} (hbusy : s.busy = true) (no : Nat) (v : BitVec 32) :
    ∃ r, hostWrite no v s = .refused r := by
  unfold hostWrite
  split
  · exact ⟨_, rfl⟩
  · exact ⟨_, if_pos hbusy⟩

/-- Number 1 is STATUS's alone. -/
theorem hostRead_refused_of_busy {s : State} (hbusy : s.busy = true) {no : Nat} (hno : no ≠ 1) :
    ∃ r, hostRead no s = .refused r := by
  unfold hostRead
  split
  · exact ⟨_, rfl⟩
  · next r hreg =>
    have hr : r ≠ .status := by
      rintro rfl
      exact hno (regNumber_of_regOfNumber hreg)
    exact ⟨_, if_pos ⟨hbusy, hr⟩⟩

/-! ### The obligations -/

/-- Settles O53: the write of the register with each number. -/
theorem hostWriteChangesOneRegister : Obligations.HostWriteChangesOneRegister := by
  unfold Obligations.HostWriteChangesOneRegister
  intro s no v rest hturn hbusy hscript
  have hwrite (r : Reg) (hreg : regOfNumber no = some r) : step s = writeReg r v (s.atTurn.withScript rest) :=
    step_wr hturn hbusy hscript hreg
  refine ⟨?plen, ?tooLong, ?hsrc, ?hdst, ?hproto, ?hflag, ?readOnly, step_wr_noSuchRegister hturn hscript⟩
  case plen =>
    rintro rfl hle
    have hlt := s.capacity_lt
    refine ⟨BitVec.ofNat 16 v.toNat, (hwrite .plen rfl).trans (if_neg (Nat.not_lt.mpr hle)), ?_⟩
    rw [BitVec.toNat_ofNat, Nat.mod_eq_of_lt (by omega)]
  case tooLong =>
    rintro rfl hlt
    exact (hwrite .plen rfl).trans (if_pos hlt)
  case hsrc => rintro rfl; exact hwrite .hsrc rfl
  case hdst => rintro rfl; exact hwrite .hdst rfl
  case hproto => rintro rfl; exact hwrite .hproto rfl
  case hflag => rintro rfl; exact hwrite .hflag rfl
  case readOnly =>
    rintro (rfl | rfl)
    · exact hwrite .status rfl
    · exact hwrite .info rfl

/-- Settles O54: a byte access is a read or a store of the one byte, after the test of its address. -/
theorem hostReachesEveryPayloadByte : Obligations.HostReachesEveryPayloadByte := by
  unfold Obligations.HostReachesEveryPayloadByte
  intro s a rest hturn hbusy
  have hfree : ¬ s.atTurn.busy = true := by simp [hbusy]
  refine ⟨fun hscript => ?_, fun b hscript => ?_⟩
  · rw [step_hostMove hturn hscript, hostMove, if_neg hfree, readByte]
    exact ⟨fun ha => if_pos ha, fun ha => if_neg (Nat.not_lt.mpr ha)⟩
  · rw [step_hostMove hturn hscript, hostMove, if_neg hfree, writeByte]
    refine ⟨fun ha => ⟨_, if_pos ha, rfl, ?_, fun x hx => ?_⟩, fun ha => if_neg (Nat.not_lt.mpr ha)⟩
    · exact State.byteAt_set_self _ a b
    · exact State.byteAt_set_other _ b hx

/-- Settles O55: each of the numbers 1 to 7 has a readable register, and a poll of a free engine takes the WAIT. -/
theorem hostReadChangesNothing : Obligations.HostReadChangesNothing := by
  unfold Obligations.HostReadChangesNothing
  intro s rest hturn hbusy
  refine ⟨fun no hscript => ⟨?writeOnly, step_rd_noSuchRegister hturn hscript, ?readable⟩, step_wait_free hturn hbusy⟩
  case writeOnly =>
    rintro rfl
    exact step_rd_writeOnly hturn hbusy hscript
  case readable =>
    intro hlo hhi
    have hread (r : Reg) (v : BitVec 32) (hreg : regOfNumber no = some r) (hv : readReg r s = some v) :=
      step_rd hturn (by simp [hbusy]) hscript hreg hv
    have hplen : (s.plen.setWidth 32).toNat = s.len := BitVec.toNat_setWidth_of_le (by decide)
    interval_cases no
    · exact ⟨_, hread .status _ rfl rfl, by simp⟩
    · exact ⟨_, hread .info _ rfl rfl, by simp⟩
    · exact ⟨_, hread .plen _ rfl rfl, by simp [hplen]⟩
    · exact ⟨_, hread .hsrc _ rfl rfl, by simp⟩
    · exact ⟨_, hread .hdst _ rfl rfl, by simp⟩
    · exact ⟨_, hread .hproto _ rfl rfl, by simp⟩
    · exact ⟨_, hread .hflag _ rfl rfl, by simp⟩

/-- Settles O56: STATUS is the one register a read may reach, and every access but a poll and a reset tests BUSY. -/
theorem busyEngineRefusesTheHost : Obligations.BusyEngineRefusesTheHost := by
  unfold Obligations.BusyEngineRefusesTheHost
  intro s op rest hturn hbusy hscript
  refine ⟨?status, ?wait, fun hrd hwait hreset => ?other⟩
  case status =>
    rintro rfl
    exact step_rd (r := .status) hturn (by simp) hscript rfl rfl
  case wait =>
    rintro rfl
    exact step_wait_busy hturn hbusy hscript
  case other =>
    rw [step_hostMove hturn hscript]
    cases op with
    | wr no v => exact hostWrite_refused_of_busy (s := s.atTurn.withScript rest) hbusy no v
    | rd no => exact hostRead_refused_of_busy (s := s.atTurn.withScript rest) hbusy (by simpa using hrd)
    | wrb a b => exact ⟨_, if_pos hbusy⟩
    | rdb a => exact ⟨_, if_pos hbusy⟩
    | wait => exact absurd rfl hwait
    | reset c => exact absurd rfl (hreset c)

end Sys2Proof.Machine
end

