-- ==== Sys2Proof/Proofs/PackedRegisters.lean ====
section
/-!
PROOF. The packed registers (spec/10_state.md R32, spec/60_exceptions.md R220). The idea: STATUS, INFO and HFLAG have
few values, so their fields are checked value by value; HPROTO is given bit by bit, and a field is read off the bits
of its range.
-/

namespace Sys2Proof.Machine

/-! ### STATUS, INFO and HFLAG -/

theorem statusWord_fields (s : State) :
    s.statusWord.getLsbD 7 = s.busy ∧ s.statusWord.extractLsb' 0 4 = Err.code s.err ∧
      s.statusWord.extractLsb' 4 3 = 0#3 ∧ s.statusWord.extractLsb' 8 24 = 0#24 := by
  unfold State.statusWord
  generalize s.busy = busy
  cases s.err <;> revert busy <;> decide

theorem infoWord_fields (s : State) :
    s.infoWord.getLsbD 0 = Key.ksel s.cfg.key ∧ s.infoWord.getLsbD 1 = s.cfg.fp.isSome ∧
      s.infoWord.extractLsb' 2 30 = 0#30 := by
  unfold State.infoWord State.fpen
  generalize Key.ksel s.cfg.key = ksel
  generalize s.cfg.fp.isSome = fpen
  revert ksel fpen
  decide

theorem hflagWord_fields (s : State) : s.hflagWord.getLsbD 0 = s.enc ∧ s.hflagWord.extractLsb' 1 31 = 0#31 := by
  unfold State.hflagWord
  generalize s.enc = enc
  revert enc
  decide

/-! ### HPROTO -/

/-- A one-bit field shows in its own bit and in no other. -/
theorem bitField_getLsbD (b : Bool) {i j : Nat} (hj : j < 32) :
    (bitField b i).getLsbD j = (decide (j = i) && b) := by
  cases b with
  | false => simp [bitField]
  | true =>
    rw [bitField, if_pos rfl, BitVec.getLsbD_shiftLeft, BitVec.getLsbD_one]
    by_cases hij : j = i
    · simp [hij]; omega
    · simp [hij]; omega

/-- HPROTO bit by bit (R32). -/
theorem hprotoWord_getLsbD (s : State) {j : Nat} (hj : j < 32) :
    s.hprotoWord.getLsbD j =
      if j < 8 then s.hiproto.getLsbD j else if j < 16 then s.htproto.getLsbD (j - 8)
      else if j < 24 then s.httl.getLsbD (j - 16) else decide (j = 24) && s.hgw := by
  rw [State.hprotoWord, BitVec.getLsbD_or, BitVec.getLsbD_or, BitVec.getLsbD_or, BitVec.getLsbD_shiftLeft,
    BitVec.getLsbD_shiftLeft, BitVec.getLsbD_setWidth, BitVec.getLsbD_setWidth, BitVec.getLsbD_setWidth,
    bitField_getLsbD _ hj]
  have hge {b : Byte} {k : Nat} (hk : 8 ≤ k) : b.getLsbD k = false := BitVec.getLsbD_of_ge b k hk
  split
  · next h8 => simp [h8, hj, show j < 16 by omega, show j ≠ 24 by omega]
  split
  · next h8 h16 => simp [h8, h16, hj, hge (Nat.not_lt.mp h8), show j - 8 < 32 by omega, show j ≠ 24 by omega]
  split
  · next h8 h16 h24 =>
    simp [h8, h16, hj, hge (Nat.not_lt.mp h8), hge (k := j - 8) (by omega), show j - 16 < 32 by omega,
      show j ≠ 24 by omega]
  · next h8 h16 h24 => simp [hge (k := j) (by omega), hge (k := j - 8) (by omega), hge (k := j - 16) (by omega)]

/-- The field of `n` bits from bit `i` is the value whose bits stand there. -/
theorem extractLsb'_eq_of_getLsbD {w : BitVec 32} {i n : Nat} {b : BitVec n}
    (h : ∀ j, j < n → w.getLsbD (i + j) = b.getLsbD j) : w.extractLsb' i n = b := by
  refine BitVec.eq_of_getLsbD_eq fun j hj => ?_
  rw [BitVec.getLsbD_extractLsb', h j hj]
  simp [hj]

theorem hprotoWord_fields (s : State) :
    s.hprotoWord.extractLsb' 0 8 = s.hiproto ∧ s.hprotoWord.extractLsb' 8 8 = s.htproto ∧
      s.hprotoWord.extractLsb' 16 8 = s.httl ∧ s.hprotoWord.getLsbD 24 = s.hgw ∧
      s.hprotoWord.extractLsb' 25 7 = 0#7 := by
  refine ⟨?_, ?_, ?_, ?_, ?_⟩
  · refine extractLsb'_eq_of_getLsbD fun j hj => ?_
    rw [hprotoWord_getLsbD s (by omega), if_pos (by omega), Nat.zero_add]
  · refine extractLsb'_eq_of_getLsbD fun j hj => ?_
    rw [hprotoWord_getLsbD s (by omega), if_neg (by omega), if_pos (by omega), Nat.add_sub_cancel_left]
  · refine extractLsb'_eq_of_getLsbD fun j hj => ?_
    rw [hprotoWord_getLsbD s (by omega), if_neg (by omega), if_neg (by omega), if_pos (by omega),
      Nat.add_sub_cancel_left]
  · rw [hprotoWord_getLsbD s (by decide)]
    rfl
  · refine extractLsb'_eq_of_getLsbD fun j hj => ?_
    rw [hprotoWord_getLsbD s (by omega), if_neg (by omega), if_neg (by omega), if_neg (by omega),
      decide_eq_false (by omega), Bool.false_and, BitVec.getLsbD_zero]

/-- HPROTO returns what was written in its named bits (R32). -/
theorem setHproto_hprotoWord (s : State) (v : BitVec 32) : (s.setHproto v).hprotoWord = v &&& 0x01FFFFFF#32 := by
  refine BitVec.eq_of_getLsbD_eq fun j hj => ?_
  have hmask : (0x01FFFFFF#32).getLsbD j = decide (j < 25) := by
    revert j; decide
  rw [hprotoWord_getLsbD _ hj, BitVec.getLsbD_and, hmask]
  simp only [State.setHproto_hiproto, State.setHproto_htproto, State.setHproto_httl, State.setHproto_hgw,
    BitVec.getLsbD_extractLsb']
  split
  · next h8 => simp [h8, show j < 25 by omega]
  split
  · next h8 h16 => simp [show j - 8 < 8 by omega, show 8 + (j - 8) = j by omega, show j < 25 by omega]
  split
  · next h8 h16 h24 => simp [show j - 16 < 8 by omega, show 16 + (j - 16) = j by omega, show j < 25 by omega]
  · next h8 h16 h24 =>
    by_cases hgw : j = 24
    · simp [hgw]
    · simp [hgw, show ¬ j < 25 by omega]

/-- Settles O57: the fields of the four registers, and the table of result codes. -/
theorem packedRegistersHoldTheirFields : Obligations.PackedRegistersHoldTheirFields := by
  unfold Obligations.PackedRegistersHoldTheirFields
  refine ⟨fun s v => ?_, rfl, rfl, rfl, rfl, rfl, rfl, rfl, rfl, rfl⟩
  exact ⟨statusWord_fields s, infoWord_fields s, hprotoWord_fields s, hflagWord_fields s, setHproto_hprotoWord s v⟩

end Sys2Proof.Machine
end

