-- ==== Sys2Proof/Proofs/RoundTransformations.lean ====
section
/-!
PROOF. The round transformations and their inverses (spec/42_aes_block_cipher.md R136, R138, R143 to R145). The idea:
MixColumns and InvMixColumns work column by column and are linear over the field of R132, so that the one undoes the
other needs a check only on the four unit columns.
-/

namespace Sys2Proof.Machine

/-! ### The substitutions -/

theorem invSubBytes_subBytes (s : Block) : invSubBytes (subBytes s) = s := by
  simp [invSubBytes, invSubWord, subBytes, subWord, invSbox_sbox]

theorem subBytes_invSubBytes (s : Block) : subBytes (invSubBytes s) = s := by
  simp [invSubBytes, invSubWord, subBytes, subWord, sbox_invSbox]

theorem shiftRows_invShiftRows (s : Block) : shiftRows (invShiftRows s) = s := rfl

/-! ### One column -/

theorem mixColumn_wordXor (a b : Word) : mixColumn (wordXor a b) = wordXor (mixColumn a) (mixColumn b) := by
  simp only [mixColumn, wordXor, gmul_xor_left, Word.mk.injEq]
  refine ⟨?_, ?_, ?_, ?_⟩ <;> ac_rfl

theorem invMixColumn_wordXor (a b : Word) :
    invMixColumn (wordXor a b) = wordXor (invMixColumn a) (invMixColumn b) := by
  simp only [invMixColumn, wordXor, gmul_xor_left, Word.mk.injEq]
  refine ⟨?_, ?_, ?_, ?_⟩ <;> ac_rfl

/-- A word with each byte multiplied by `b`. -/
def wordScale (b : Byte) (w : Word) : Word := ⟨gmul b w.b0, gmul b w.b1, gmul b w.b2, gmul b w.b3⟩

theorem mixColumn_wordScale (b : Byte) (w : Word) : mixColumn (wordScale b w) = wordScale b (mixColumn w) := by
  simp only [mixColumn, wordScale, gmul_assoc, gmul_xor_right]

theorem invMixColumn_wordScale (b : Byte) (w : Word) : invMixColumn (wordScale b w) = wordScale b (invMixColumn w) := by
  simp only [invMixColumn, wordScale, gmul_assoc, gmul_xor_right]

/-- A word is a sum of multiples of the four unit words. -/
theorem eq_sum_wordScale_units (w : Word) :
    w = wordXor
      (wordXor (wordScale w.b0 ⟨0x01#8, 0x00#8, 0x00#8, 0x00#8⟩) (wordScale w.b1 ⟨0x00#8, 0x01#8, 0x00#8, 0x00#8⟩))
      (wordXor (wordScale w.b2 ⟨0x00#8, 0x00#8, 0x01#8, 0x00#8⟩) (wordScale w.b3 ⟨0x00#8, 0x00#8, 0x00#8, 0x01#8⟩)) := by
  simp [wordXor, wordScale]

/-- A linear map of words that fixes the four unit words fixes every word. -/
theorem eq_self_of_linear {f : Word → Word} (hadd : ∀ a b, f (wordXor a b) = wordXor (f a) (f b))
    (hscale : ∀ b a, f (wordScale b a) = wordScale b (f a))
    (h0 : f ⟨0x01#8, 0x00#8, 0x00#8, 0x00#8⟩ = ⟨0x01#8, 0x00#8, 0x00#8, 0x00#8⟩)
    (h1 : f ⟨0x00#8, 0x01#8, 0x00#8, 0x00#8⟩ = ⟨0x00#8, 0x01#8, 0x00#8, 0x00#8⟩)
    (h2 : f ⟨0x00#8, 0x00#8, 0x01#8, 0x00#8⟩ = ⟨0x00#8, 0x00#8, 0x01#8, 0x00#8⟩)
    (h3 : f ⟨0x00#8, 0x00#8, 0x00#8, 0x01#8⟩ = ⟨0x00#8, 0x00#8, 0x00#8, 0x01#8⟩) (w : Word) : f w = w := by
  rw [eq_sum_wordScale_units w, hadd, hadd, hadd, hscale, hscale, hscale, hscale, h0, h1, h2, h3]

theorem invMixColumn_mixColumn (w : Word) : invMixColumn (mixColumn w) = w := by
  refine eq_self_of_linear (f := fun a => invMixColumn (mixColumn a)) (fun a b => ?_) (fun b a => ?_)
    (by decide) (by decide) (by decide) (by decide) w
  · rw [mixColumn_wordXor, invMixColumn_wordXor]
  · rw [mixColumn_wordScale, invMixColumn_wordScale]

theorem mixColumn_invMixColumn (w : Word) : mixColumn (invMixColumn w) = w := by
  refine eq_self_of_linear (f := fun a => mixColumn (invMixColumn a)) (fun a b => ?_) (fun b a => ?_)
    (by decide) (by decide) (by decide) (by decide) w
  · rw [invMixColumn_wordXor, mixColumn_wordXor]
  · rw [invMixColumn_wordScale, mixColumn_wordScale]

/-! ### All four columns -/

theorem invMixColumns_mixColumns (s : Block) : invMixColumns (mixColumns s) = s := by
  simp [invMixColumns, mixColumns, invMixColumn_mixColumn]

theorem mixColumns_invMixColumns (s : Block) : mixColumns (invMixColumns s) = s := by
  simp [invMixColumns, mixColumns, mixColumn_invMixColumn]

/-- Column `c` of a block (R135). -/
def blockColumn (s : Block) (c : Nat) : Word :=
  match c with
  | 0 => s.c0
  | 1 => s.c1
  | 2 => s.c2
  | _ => s.c3

/-- The bytes `4c` to `4c + 3` of a block are its column `c` (R135). -/
theorem blockBytes_column (s : Block) {c : Nat} (hc : c < 4) :
    ((blockBytes s).drop (4 * c)).take 4 = wordBytes (blockColumn s c) := by
  interval_cases c <;> rfl

theorem blockColumn_mixColumns (s : Block) (c : Nat) : blockColumn (mixColumns s) c = mixColumn (blockColumn s c) := by
  unfold blockColumn
  split <;> rfl

theorem blockColumn_invMixColumns (s : Block) (c : Nat) :
    blockColumn (invMixColumns s) c = invMixColumn (blockColumn s c) := by
  unfold blockColumn
  split <;> rfl

theorem eq_of_wordBytes_eq {w : Word} {a0 a1 a2 a3 : Byte} (h : wordBytes w = [a0, a1, a2, a3]) :
    w = ⟨a0, a1, a2, a3⟩ := by
  cases w
  simpa [wordBytes] using h

/-- Settles O14: the substitutions by the tables, the columns by their matrix, and the six ways to undo. -/
theorem inverseRoundTransformationsUndo : Obligations.InverseRoundTransformationsUndo := by
  unfold Obligations.InverseRoundTransformationsUndo
  refine fun s => ⟨⟨rfl, rfl⟩, fun c a0 a1 a2 a3 hc hcol => ?_, invSubBytes_subBytes s, subBytes_invSubBytes s,
    invShiftRows_shiftRows s, shiftRows_invShiftRows s, invMixColumns_mixColumns s, mixColumns_invMixColumns s⟩
  rw [blockBytes_column s hc] at hcol
  rw [blockBytes_column _ hc, blockBytes_column _ hc, blockColumn_mixColumns, blockColumn_invMixColumns,
    eq_of_wordBytes_eq hcol]
  exact ⟨rfl, rfl⟩

end Sys2Proof.Machine
end

