-- ==== Sys2Proof/Proofs/Cipher.lean ====
section
/-!
PROOF. The cipher and its inverse (spec/42_aes_block_cipher.md R139, R142, R146). The idea: the rounds are folds over
the round numbers, up for Cipher and down for InvCipher, and each round of the one undoes the round of the other with
the same number.
-/

namespace Sys2Proof.Machine

/-! ### The rounds as folds -/

theorem cipherRounds_eq_foldl (w : Schedule) (n : Nat) (x : Block) :
    cipherRounds w n x =
      (List.range' 1 n).foldl (fun s j => addRoundKey (mixColumns (shiftRows (subBytes s))) w j)
        (addRoundKey x w 0) := by
  induction n with
  | zero => rfl
  | succ n ih => rw [cipherRounds_succ, ih, List.range'_1_concat, List.foldl_concat, Nat.add_comm 1 n]

theorem invCipherRounds_eq_foldl (w : Schedule) (n : Nat) (y : Block) :
    invCipherRounds w n y =
      addRoundKey (invSubBytes (invShiftRows
        ((List.range' 1 n).reverse.foldl
          (fun s j => invMixColumns (addRoundKey (invSubBytes (invShiftRows s)) w j)) y))) w 0 := by
  induction n generalizing y with
  | zero => rfl
  | succ n ih =>
    rw [invCipherRounds_succ, ih, List.range'_1_concat, List.reverse_concat, List.foldl_cons, Nat.add_comm 1 n]

/-! ### Inverse permutations -/

/-- The inverse rounds undo the rounds and the two first transformations of the round that follows. -/
theorem invCipherRounds_cipherRounds (w : Schedule) (n : Nat) (x : Block) :
    invCipherRounds w n (shiftRows (subBytes (cipherRounds w n x))) = x := by
  induction n with
  | zero =>
    rw [invCipherRounds_zero, invShiftRows_shiftRows, invSubBytes_subBytes, cipherRounds_zero, addRoundKey_addRoundKey]
  | succ n ih =>
    rw [invCipherRounds_succ, invShiftRows_shiftRows, invSubBytes_subBytes, cipherRounds_succ, addRoundKey_addRoundKey,
      invMixColumns_mixColumns, ih]

theorem cipherRounds_invCipherRounds (w : Schedule) (n : Nat) (y : Block) :
    shiftRows (subBytes (cipherRounds w n (invCipherRounds w n y))) = y := by
  induction n generalizing y with
  | zero =>
    rw [invCipherRounds_zero, cipherRounds_zero, addRoundKey_addRoundKey, subBytes_invSubBytes, shiftRows_invShiftRows]
  | succ n ih =>
    rw [cipherRounds_succ, invCipherRounds_succ, ih, mixColumns_invMixColumns, addRoundKey_addRoundKey,
      subBytes_invSubBytes, shiftRows_invShiftRows]

@[simp] theorem invCipher_cipher (w : Schedule) (x : Block) : invCipher w (cipher w x) = x := by
  rw [invCipher, cipher, addRoundKey_addRoundKey, invCipherRounds_cipherRounds]

@[simp] theorem cipher_invCipher (w : Schedule) (y : Block) : cipher w (invCipher w y) = y := by
  rw [cipher, invCipher, cipherRounds_invCipherRounds, addRoundKey_addRoundKey]

/-! ### The obligation -/

theorem blockBytes_blockXor (a b : Block) :
    blockBytes (blockXor a b) = List.zipWith (· ^^^ ·) (blockBytes a) (blockBytes b) := rfl

/-- Settles O16: both ciphers are folds of their rounds, and each undoes the other round by round. -/
theorem invCipherInvertsCipher : Obligations.InvCipherInvertsCipher := by
  unfold Obligations.InvCipherInvertsCipher
  refine fun w x => ⟨fun j => blockBytes_blockXor _ _, ?_, ?_, invCipher_cipher w x, cipher_invCipher w x⟩
  · rw [cipher, cipherRounds_eq_foldl]
  · rw [invCipher, invCipherRounds_eq_foldl]

end Sys2Proof.Machine
end

