-- ==== Sys2Proof/Proofs/ContextVector.lean ====
section
/-!
PROOF. CtxPrefix and the context vector (spec/40_context_iv_tag.md R90 to R92, R96). The idea: CtxPrefix is a list of
twelve bytes, each given by one header field, and the vector is this list followed by four bytes.
-/

namespace Sys2Proof.Machine

theorem gatewayByte_injective {gw gw' : Bool} (h : gatewayByte gw = gatewayByte gw') : gw = gw' := by
  revert gw gw'
  decide

/-- CtxPrefix tells any two headers apart (R96). -/
theorem ctxPrefix_injective {src src' dst dst' : BitVec 32} {ip ip' tp tp' ttl ttl' : Byte} {gw gw' : Bool}
    (h : ctxPrefix src dst ip tp gw ttl = ctxPrefix src' dst' ip' tp' gw' ttl') :
    src = src' ∧ dst = dst' ∧ ip = ip' ∧ tp = tp' ∧ gw = gw' ∧ ttl = ttl' := by
  rw [ctxPrefix, ctxPrefix] at h
  obtain ⟨haddr, hrest⟩ := List.append_inj h rfl
  obtain ⟨hsrc, hdst⟩ := List.append_inj haddr rfl
  simp only [List.cons.injEq, and_true] at hrest
  obtain ⟨hip, htp, hgw, httl⟩ := hrest
  exact ⟨be32_injective hsrc, be32_injective hdst, hip, htp, gatewayByte_injective hgw, httl⟩

/-- Settles O5: the layout is the definition, byte by byte, and each field is read back from its bytes. -/
theorem contextPrefixTellsHeadersApart : Obligations.ContextPrefixTellsHeadersApart := by
  unfold Obligations.ContextPrefixTellsHeadersApart
  refine ⟨fun _ => rfl, fun _ _ _ _ _ _ => rfl, fun src src' dst dst' ip ip' tp tp' ttl ttl' gw gw' =>
    ⟨ctxPrefix_injective, ?_⟩⟩
  rintro ⟨rfl, rfl, rfl, rfl, rfl, rfl⟩
  rfl

theorem ctxVector_some (f : Fingerprint) (c : List Byte) : ctxVector (some f) c = c ++ salt4 f c := rfl

theorem ctxVector_none (c : List Byte) : ctxVector none c = c ++ rep 0x00#8 4 := rfl

/-- The context vector begins with the twelve bytes of CtxPrefix (R92). -/
theorem ctxVector_take (fp : Option Fingerprint) {c : List Byte} (hc : c.length = 12) :
    (ctxVector fp c).take 12 = c := by
  cases fp with
  | none => exact List.take_left' hc
  | some f => exact List.take_left' hc

/-- Settles O6: the IV block has the bytes of the context vector, and CtxPrefix is its first twelve. -/
theorem contextVectorIsPrefixAndSalt : Obligations.ContextVectorIsPrefixAndSalt := by
  unfold Obligations.ContextVectorIsPrefixAndSalt
  intro s
  rw [s.blockBytes_iv]
  have hlen := s.c12_length
  refine ⟨ctxVector_take _ hlen, ctxVector_length _ hlen, fun hfp => ?_, fun f hfp => ?_⟩
  · rw [hfp, ctxVector_none, List.drop_left' hlen]
  · rw [hfp, ctxVector_some, List.drop_left' hlen, ← salt4]

end Sys2Proof.Machine
end

