-- ==== Sys2Proof/Proofs/BlockMode.lean ====
section
/-!
PROOF. The block mode (spec/43_cbc_pkcs7.md R162 to R167, spec/45_encrypt.md R208). The idea: on the list of blocks,
block `i` of either transform takes the ciphertext block before it, that is entry `i` of the list with the IV put in
front; the statements on bytes follow since whole blocks are the bytes of their blocks.
-/

namespace Sys2Proof.Machine

/-! ### Blocks of a byte sequence -/

theorem blocksBytes_drop (bs : List Block) (i : Nat) : (blocksBytes bs).drop (16 * i) = blocksBytes (bs.drop i) := by
  induction bs generalizing i with
  | nil => simp
  | cons b bs ih =>
    cases i with
    | zero => rfl
    | succ i =>
      rw [blocksBytes_cons, List.drop_succ_cons, ← ih, Nat.mul_succ, Nat.add_comm, ← List.drop_drop,
        List.drop_left' (blockBytes_length b)]

/-- The block of zeros, which `toBlock` gives for a sequence without a block. -/
def zeroBlock : Block := ⟨zeroWord, zeroWord, zeroWord, zeroWord⟩

/-- Block `i` of a byte sequence is entry `i` of its blocks. -/
theorem toBlock_blocksBytes_drop (bs : List Block) (i : Nat) :
    toBlock ((blocksBytes bs).drop (16 * i)) = bs.getD i zeroBlock := by
  rw [blocksBytes_drop, toBlock, toBlocks_blocksBytes, List.headD_eq_head?_getD, List.head?_drop,
    List.getD_eq_getElem?_getD, zeroBlock]

@[simp] theorem cbcEnc_blocksBytes (w : Schedule) (iv : Block) (bs : List Block) :
    cbcEnc w iv (blocksBytes bs) = blocksBytes (cbcEncBlocks w iv bs) := by
  rw [cbcEnc, toBlocks_blocksBytes]

@[simp] theorem cbcDec_blocksBytes (w : Schedule) (iv : Block) (bs : List Block) :
    cbcDec w iv (blocksBytes bs) = blocksBytes (cbcDecBlocks w iv bs) := by
  rw [cbcDec, toBlocks_blocksBytes]

/-! ### The chaining -/

/-- Block `i` of an encryption; entry `i` behind the IV is the ciphertext block before it (R162). -/
theorem cbcEncBlocks_getD (w : Schedule) (p : Block) {xs : List Block} {i : Nat} (hi : i < xs.length) :
    (cbcEncBlocks w p xs).getD i zeroBlock =
      cipher w (blockXor (xs.getD i zeroBlock) ((p :: cbcEncBlocks w p xs).getD i zeroBlock)) := by
  induction xs generalizing p i with
  | nil => cases hi
  | cons x xs ih =>
    cases i with
    | zero => rfl
    | succ i => simpa using ih (cipher w (blockXor x p)) (by simpa using hi)

/-- Block `i` of a decryption; entry `i` behind the IV is the ciphertext block before it (R164). -/
theorem cbcDecBlocks_getD (w : Schedule) (p : Block) {cs : List Block} {i : Nat} (hi : i < cs.length) :
    (cbcDecBlocks w p cs).getD i zeroBlock =
      blockXor (invCipher w (cs.getD i zeroBlock)) ((p :: cs).getD i zeroBlock) := by
  induction cs generalizing p i with
  | nil => cases hi
  | cons c cs ih =>
    cases i with
    | zero => rfl
    | succ i => simpa using ih c (by simpa using hi)

/-- Entry `i` behind the IV is the IV or the entry before `i`. -/
theorem getD_cons_eq_ite (iv : Block) (bs : List Block) (i : Nat) :
    (iv :: bs).getD i zeroBlock = if i = 0 then iv else bs.getD (i - 1) zeroBlock := by
  cases i with
  | zero => rfl
  | succ i => rw [if_neg (Nat.succ_ne_zero i)]; rfl

@[simp] theorem cbcDecBlocks_cbcEncBlocks (w : Schedule) (p : Block) (xs : List Block) :
    cbcDecBlocks w p (cbcEncBlocks w p xs) = xs := by
  induction xs generalizing p with
  | nil => rfl
  | cons x xs ih => simp [ih]

@[simp] theorem cbcEncBlocks_cbcDecBlocks (w : Schedule) (p : Block) (cs : List Block) :
    cbcEncBlocks w p (cbcDecBlocks w p cs) = cs := by
  induction cs generalizing p with
  | nil => rfl
  | cons c cs ih => simp [ih]

/-! ### Whole blocks of bytes -/

theorem cbcDec_cbcEnc (w : Schedule) (iv : Block) {x : List Byte} (h : x.length % 16 = 0) :
    cbcDec w iv (cbcEnc w iv x) = x := by
  obtain ⟨bs, rfl⟩ := exists_blocks h
  simp

theorem cbcEnc_cbcDec (w : Schedule) (iv : Block) {x : List Byte} (h : x.length % 16 = 0) :
    cbcEnc w iv (cbcDec w iv x) = x := by
  obtain ⟨bs, rfl⟩ := exists_blocks h
  simp

/-- The ciphertext of whole blocks does not depend on what follows them. -/
theorem cbcEnc_append_take (w : Schedule) (iv : Block) {x : List Byte} (h : x.length % 16 = 0) (y : List Byte) :
    (cbcEnc w iv (x ++ y)).take x.length = cbcEnc w iv x := by
  rw [cbcEnc, toBlocks_append h, cbcEncBlocks_append, blocksBytes_append, ← cbcEnc,
    List.take_left' (cbcEnc_length w iv h)]

/-- Settles O19: the chaining and the inverses on the blocks, carried over to bytes. -/
theorem cbcDecryptionInvertsEncryption : Obligations.CbcDecryptionInvertsEncryption := by
  unfold Obligations.CbcDecryptionInvertsEncryption
  intro w iv x hx
  refine ⟨fun i hi => ?_, cbcDec_cbcEnc w iv hx, cbcEnc_cbcDec w iv hx, cbcEnc_length w iv hx, cbcDec_length w iv hx,
    blockBytes_blockXor⟩
  obtain ⟨bs, rfl⟩ := exists_blocks hx
  have hi : i < bs.length := by simpa using hi
  simp only [cbcEnc_blocksBytes, cbcDec_blocksBytes, toBlock_blocksBytes_drop]
  rw [← getD_cons_eq_ite, ← getD_cons_eq_ite]
  exact ⟨cbcEncBlocks_getD w iv hi, cbcDecBlocks_getD w iv hi⟩

/-! ### With padding -/

theorem cbcDecUnpad_cbcEncPad (w : Schedule) (iv : Block) (m : List Byte) :
    cbcDecUnpad w iv (cbcEncPad w iv m) = some m := by
  have hlen := cbcEncPad_length w iv m
  rw [cbcDecUnpad_of_blocks w iv (by omega) (by omega), cbcEncPad, cbcDec_cbcEnc w iv (pad_length_mod m), unpad_pad]

/-- Settles O20: the two inverses one after the other, and the length of the padded message. -/
theorem cbcRoundTripWithPadding : Obligations.CbcRoundTripWithPadding := by
  unfold Obligations.CbcRoundTripWithPadding
  refine fun w iv m => ⟨cbcDecUnpad_cbcEncPad w iv m, ?_⟩
  rw [cbcEncPad_length, roundUp16]
  omega

theorem cbcEncPad_injective {w : Schedule} {iv : Block} {m m' : List Byte}
    (h : cbcEncPad w iv m = cbcEncPad w iv m') : m = m' := by
  rw [← Option.some.injEq, ← cbcDecUnpad_cbcEncPad w iv m, h, cbcDecUnpad_cbcEncPad]

/-- Two ciphertexts of one payload are equal exactly when their nonces are (R208). -/
theorem cbcEncPad_nonce_iff (w : Schedule) (iv : Block) (m : List Byte) (x y : BitVec 32) :
    cbcEncPad w iv (m ++ be32 x) = cbcEncPad w iv (m ++ be32 y) ↔ x = y := by
  refine ⟨fun h => be32_injective (List.append_cancel_left (cbcEncPad_injective h)), ?_⟩
  rintro rfl
  rfl

/-- The whole blocks of the payload are encrypted alone, whatever follows the payload (R208). -/
theorem cbcEncPad_take (w : Schedule) (iv : Block) (m y : List Byte) :
    (cbcEncPad w iv (m ++ y)).take (16 * (m.length / 16)) = cbcEnc w iv (m.take (16 * (m.length / 16))) := by
  have hlen : (m.take (16 * (m.length / 16))).length = 16 * (m.length / 16) := by
    rw [List.length_take]
    omega
  obtain ⟨z, hz⟩ : ∃ z, pad (m ++ y) = m.take (16 * (m.length / 16)) ++ z := by
    refine ⟨m.drop (16 * (m.length / 16)) ++ (y ++ (pad (m ++ y)).drop (m ++ y).length), ?_⟩
    rw [← List.append_assoc, List.take_append_drop, ← List.append_assoc, pad, List.drop_left]
  have htake := cbcEnc_append_take w iv (x := m.take (16 * (m.length / 16))) (by omega) z
  rwa [hlen, ← hz, ← cbcEncPad] at htake

/-- Settles O23: the blocks before the end of the payload are those of the payload alone, and the nonce is read back
from the plaintext. -/
theorem nonceReachesTheLastBlocksOnly : Obligations.NonceReachesTheLastBlocksOnly := by
  unfold Obligations.NonceReachesTheLastBlocksOnly
  refine fun w iv m x y => ⟨?_, cbcEncPad_nonce_iff w iv m x y⟩
  rw [cbcEncPad_take, cbcEncPad_take]

/-- The IV enters the first block of a decryption only (R167). -/
theorem cbcDec_blockBytes_append (w : Schedule) (iv b : Block) (y : List Byte) :
    cbcDec w iv (blockBytes b ++ y) = blockBytes (blockXor (invCipher w b) iv) ++ cbcDec w b y := rfl

/-- Settles O22: the two decryptions differ in the block the IV is added to. -/
theorem wrongIvChangesTheFirstBlockOnly : Obligations.WrongIvChangesTheFirstBlockOnly := by
  unfold Obligations.WrongIvChangesTheFirstBlockOnly
  intro w iv iv' c hlen _
  obtain ⟨b, y, rfl⟩ := exists_block_append hlen
  rw [cbcDec_blockBytes_append, cbcDec_blockBytes_append]
  refine ⟨by rw [List.drop_left' (blockBytes_length _), List.drop_left' (blockBytes_length _)], ?_⟩
  rw [List.take_left' (blockBytes_length _), List.take_left' (blockBytes_length _), toBlock_blockBytes,
    toBlock_blockBytes, ← blockXor_assoc, blockXor_self_right]

end Sys2Proof.Machine
end

