-- ==== Sys2Proof/Proofs/DecryptAnswers.lean ====
section
/-!
PROOF. What DECRYPT answers and leaves unchanged as a whole (spec/44_decrypt.md R180 to R187, spec/60_exceptions.md
R229). The idea: the tests of DECRYPT in their order single out one answer, and every answer either stores a shorter
payload or only reports an error.
-/

namespace Sys2Proof.Machine

/-- The tag test of R184, as the existence of a fingerprint function whose tag differs. -/
theorem tagMatches_iff_not_exists (s : State) :
    s.TagMatches ↔ ¬ ∃ f, s.cfg.fp = some f ∧ s.storedTag ≠ tag12 f s.c12 s.region := by
  simp [State.TagMatches]

/-- Nothing of PB is listed from where it has been forgotten (R52). -/
theorem Memory.below_keepBelow_self (m : Memory) (k : Nat) : Memory.below (Memory.keepBelow m k) k = true := by
  simp [Memory.below, Memory.keepBelow]

/-- Settles O27: each of the three causes leaves no plaintext of four bytes or more. -/
theorem decryptRefusesBadPadding : Obligations.DecryptRefusesBadPadding := by
  unfold Obligations.DecryptRefusesBadPadding
  intro s he h16 hc ht hcause
  refine execDecrypt_of_unopened he h16 hc ht fun r hr => ?_
  obtain hmod | hnone | ⟨r', hr', hshort⟩ := hcause
  · obtain ⟨-, hblocks, -⟩ := cbcDecUnpad_eq_some.mp hr
    exact absurd (by simpa [State.region] using hblocks) hmod
  · rw [hnone] at hr
    cases hr
  · rw [hr'] at hr
    cases hr
    exact hshort

/-- Settles O30: the tests one after the other; a payload that passes them all is a success. -/
theorem decryptReportsTheFirstError : Obligations.DecryptReportsTheFirstError := by
  unfold Obligations.DecryptReportsTheFirstError
  intro s hc
  by_cases he : s.enc = false
  · exact ⟨_, execDecrypt_of_unflagged he, rfl, (if_pos he).symm⟩
  have henc : s.enc = true := by simpa using he
  by_cases h16 : s.len < 16
  · exact ⟨_, execDecrypt_of_short henc h16, rfl, by rw [if_neg he, if_pos h16]; rfl⟩
  by_cases hbad : ∃ f, s.cfg.fp = some f ∧ s.storedTag ≠ tag12 f s.c12 s.region
  · have ht : ¬ s.TagMatches := fun ht => (tagMatches_iff_not_exists s).mp ht hbad
    exact ⟨_, execDecrypt_of_bad_tag henc (by omega) hc ht, rfl, by rw [if_neg he, if_neg h16, if_pos hbad]; rfl⟩
  have ht : s.TagMatches := (tagMatches_iff_not_exists s).mpr hbad
  by_cases hopen : ∃ r, cbcDecUnpad s.schedule s.iv s.region = some r ∧ 4 ≤ r.length
  · obtain ⟨r, hr, h4⟩ := hopen
    exact ⟨_, execDecrypt_of_opened henc (by omega) hc ht hr h4, rfl,
      by rw [if_neg he, if_neg h16, if_neg hbad, if_pos ⟨r, hr, h4⟩]; rfl⟩
  · have hshort : ∀ r, cbcDecUnpad s.schedule s.iv s.region = some r → r.length < 4 := fun r hr =>
      Nat.lt_of_not_le fun h4 => hopen ⟨r, hr, h4⟩
    exact ⟨_, execDecrypt_of_unopened henc (by omega) hc ht hshort, rfl,
      by rw [if_neg he, if_neg h16, if_neg hbad, if_neg hopen]; rfl⟩

/-- Settles O31: a success stores a shorter payload and forgets what is behind it; an error is only reported. -/
theorem decryptFrame : Obligations.DecryptFrame := by
  unfold Obligations.DecryptFrame
  intro s t hrun
  obtain ⟨m, hlt, hm, rfl⟩ | ⟨e, he, rfl⟩ := execDecrypt_next hrun
  · obtain ⟨hlen, -, herr, -, hbusy, hrng, hdraws, hout⟩ := decrypted_spec hm
    refine ⟨hout, hrng, hdraws, hbusy, by omega, fun hfailed => absurd herr hfailed, fun _ => ?_⟩
    rw [hlen]
    exact Memory.below_keepBelow_self _ _
  · exact ⟨.complete s e, rfl, rfl, rfl, Nat.le_refl _, fun _ => ⟨rfl, rfl, fun _ => rfl⟩, fun hok => absurd hok he⟩

end Sys2Proof.Machine
end

