-- ==== Sys2Proof/Proofs/Encrypt.lean ====
section
/-!
PROOF. The ENCRYPT command (spec/45_encrypt.md R200 to R211, spec/41_secret_body_codec.md R116,
spec/70_reset_and_hazards.md R253). The idea: the sum `round_up_16(n + 5)` of the rules is the ciphertext length of
the steps, and the four answers of ENCRYPT are told apart by the growth test and by whether the payload fits.
-/

namespace Sys2Proof.Machine

/-! ### Lengths -/

/-- The ciphertext length in the terms of R201. -/
theorem State.roundUp16_len (s : State) : roundUp16 (s.len + 5) = s.cipherLen := by
  unfold roundUp16 State.cipherLen
  omega

theorem SameOutside.tagLen {s t : State} (h : SameOutside s t) : t.tagLen = s.tagLen := by
  obtain ⟨-, hcfg, -⟩ := h
  rw [State.tagLen, State.fpen, hcfg]
  rfl

/-! ### The answers -/

/-- ENCRYPT succeeds exactly when the payload fits (R201). -/
theorem execEncrypt_success_iff {s t : State} (hrun : execEncrypt s = .next t) : t.err = .success ↔ s.Fits := by
  obtain ⟨hgrown, rfl⟩ | ⟨-, hnot, e, he, rfl⟩ | ⟨hfits, rfl⟩ := execEncrypt_next hrun
  · exact ⟨fun h => by simp at h, fun h => absurd (s.grown_le_of_fits h) (by omega)⟩
  · exact ⟨fun h => absurd h he, fun h => absurd h hnot⟩
  · obtain ⟨-, -, -, herr, -⟩ := encrypted_spec hfits
    exact ⟨fun _ => hfits, fun _ => herr⟩

/-- After a success the state is the one that `encrypted_spec` describes. -/
theorem eq_encrypted_of_fits {s t : State} (hfits : s.Fits) (hrun : execEncrypt s = .next t) : t = encrypted s :=
  Host.Outcome.next.inj (hrun.symm.trans (execEncrypt_of_fits hfits))

/-- The growth failure (R205 case a). -/
theorem execEncrypt_of_grown {s : State} (h : s.capacity < s.grown) :
    execEncrypt s = .next (s.afterDraw.complete .lengthExceedsCapacity) := by
  rw [execEncrypt_eq, if_pos h]

/-- The ciphertext does not fit (R205 case b). -/
theorem execEncrypt_of_cipherLen {s : State} (hg : s.grown ≤ s.capacity) (h : s.capacity < s.cipherLen) :
    execEncrypt s = .next (s.afterDraw.spoil.complete .encryptFailure) := by
  rw [execEncrypt_eq, if_neg (by omega), if_pos h]

/-- The tag does not fit behind the ciphertext (R205 case c). -/
theorem execEncrypt_of_tagLen {s : State} (hg : s.grown ≤ s.capacity) (hc : s.cipherLen ≤ s.capacity)
    (h : s.capacity < s.cipherLen + s.tagLen) :
    execEncrypt s = .next (s.afterDraw.spoil.complete .lengthExceedsCapacity) := by
  rw [execEncrypt_eq, if_neg (by omega), if_neg (by omega), if_pos h]

/-- Nothing is listed beyond the payload a successful ENCRYPT leaves (R211). -/
theorem encrypted_below {s : State} (hfits : s.Fits) : Memory.below (encrypted s).pb (encrypted s).len = true := by
  obtain ⟨hlen, -⟩ := encrypted_spec hfits
  rw [hlen]
  cases hfp : s.cfg.fp with
  | none =>
    rw [State.tagLen_none hfp, encrypted_of_none hfp]
    exact Memory.below_keepBelow_self _ _
  | some f =>
    rw [State.tagLen_some hfp, encrypted_of_some hfp]
    exact Memory.below_keepBelow_self _ _

/-- A success sets ENC whatever it was (R207). -/
theorem encrypted_setEnc (s : State) (b : Bool) : encrypted (s.setEnc b) = encrypted s := by
  cases hfp : s.cfg.fp with
  | none =>
    rw [encrypted_of_none hfp, encrypted_of_none (s := s.setEnc b) hfp]
    rfl
  | some f =>
    rw [encrypted_of_some hfp, encrypted_of_some (s := s.setEnc b) hfp]
    rfl

/-- A failure is the same failure whatever ENC was, and keeps it (R207, R210). -/
theorem execEncrypt_setEnc_of_not_fits {s t : State} (b : Bool) (hnot : ¬ s.Fits) (hrun : execEncrypt s = .next t) :
    execEncrypt (s.setEnc b) = .next (t.setEnc b) := by
  by_cases hg : s.capacity < s.grown
  · obtain rfl := Host.Outcome.next.inj ((execEncrypt_of_grown hg).symm.trans hrun)
    exact execEncrypt_of_grown (s := s.setEnc b) hg
  by_cases hc : s.capacity < s.cipherLen
  · obtain rfl := Host.Outcome.next.inj ((execEncrypt_of_cipherLen (by omega) hc).symm.trans hrun)
    exact execEncrypt_of_cipherLen (s := s.setEnc b) (Nat.not_lt.mp hg) hc
  · have ht : s.capacity < s.cipherLen + s.tagLen := Nat.lt_of_not_le (mt s.fits_iff.mpr hnot)
    obtain rfl := Host.Outcome.next.inj ((execEncrypt_of_tagLen (by omega) (by omega) ht).symm.trans hrun)
    exact execEncrypt_of_tagLen (s := s.setEnc b) (Nat.not_lt.mp hg) (Nat.not_lt.mp hc) ht

/-! ### The obligations -/

/-- Settles O32: the description of the state a success leaves. -/
theorem encryptStoresTheSealedPayload : Obligations.EncryptStoresTheSealedPayload := by
  unfold Obligations.EncryptStoresTheSealedPayload
  intro s hfits
  obtain ⟨hlen, hcipher, htag, herr, henc, hbusy, hrng, hdraws, hout⟩ := encrypted_spec hfits
  rw [s.roundUp16_len]
  refine ⟨_, execEncrypt_of_fits hfits, herr, hbusy, henc, hlen, hcipher, fun f hf => ?_, hrng, hdraws, hout⟩
  rw [htag f hf, hcipher]

/-- Settles O33: the condition of the statement is `State.Fits`, and 20 bytes more than the payload always cover it. -/
theorem encryptSucceedsExactlyWhenItFits : Obligations.EncryptSucceedsExactlyWhenItFits := by
  unfold Obligations.EncryptSucceedsExactlyWhenItFits
  intro s
  obtain ⟨t, hrun⟩ := execEncrypt_completes s
  have hiff := execEncrypt_success_iff hrun
  refine ⟨t, hrun, (exec_next (i := .encrypt) hrun).2, hiff, fun hspare => hiff.mpr ?_⟩
  obtain ⟨-, -, hround⟩ := roundUp16_spec (s.len + 5)
  show roundUp16 (s.len + 5) + (if s.fpen then 12 else 0) ≤ s.capacity
  omega

/-- Settles O34: the three tests one after the other; with a tag, the growth leaves 12 bytes beyond the nonce, so the
ciphertext fits unless its padding is longer than that. -/
theorem encryptCapacityFailures : Obligations.EncryptCapacityFailures := by
  unfold Obligations.EncryptCapacityFailures
  intro s
  refine ⟨fun h => ⟨_, execEncrypt_of_grown h, rfl⟩,
    fun hg h => ⟨⟨_, execEncrypt_of_cipherLen hg h, rfl⟩, fun hfp => ?_⟩,
    fun hg hc h => ⟨_, execEncrypt_of_tagLen hg hc h, rfl⟩⟩
  have htag : s.tagLen = 12 := if_pos hfp
  unfold State.grown at hg
  unfold State.cipherLen at h
  omega

/-- Settles O35: the growth failure is one draw and a completion; the later ones spoil the payload and nothing else. -/
theorem failedEncryptLeavesTheRest : Obligations.FailedEncryptLeavesTheRest := by
  unfold Obligations.FailedEncryptLeavesTheRest
  refine fun s => ⟨execEncrypt_of_grown, fun hg hnot => ?_⟩
  obtain ⟨t, hrun⟩ := execEncrypt_completes s
  obtain ⟨hgrown, -⟩ | ⟨-, -, e, he, rfl⟩ | ⟨hfits, -⟩ := execEncrypt_next hrun
  · omega
  · exact ⟨_, hrun, he, rfl, rfl, s.afterDraw.spoil_len_le, .spoiled s e⟩
  · exact absurd hfits hnot

/-- Settles O37: the three answers of ENCRYPT. -/
theorem encryptFrame : Obligations.EncryptFrame := by
  unfold Obligations.EncryptFrame
  intro s t hrun
  obtain ⟨hgrown, rfl⟩ | ⟨hg, -, e, he, rfl⟩ | ⟨hfits, rfl⟩ := execEncrypt_next hrun
  · exact ⟨.drawn s _, rfl, rfl, rfl, fun h => by simp at h, fun _ => rfl, fun _ => ⟨rfl, fun _ => rfl⟩, by omega⟩
  · exact ⟨.spoiled s e, rfl, rfl, rfl, fun h => absurd h he, fun _ => rfl, by omega, fun _ _ => rfl⟩
  · obtain ⟨-, -, -, herr, henc, hbusy, hrng, hdraws, hout⟩ := encrypted_spec hfits
    have hg := s.grown_le_of_fits hfits
    exact ⟨hout, hbusy, hrng, hdraws, fun _ => ⟨henc, encrypted_below hfits⟩, fun h => absurd herr h, by omega,
      fun _ h => absurd herr h⟩

/-- Settles O38: the region is the ciphertext, of `round_up_16(n + 5)` bytes. -/
theorem encryptedRegionIsWholeBlocks : Obligations.EncryptedRegionIsWholeBlocks := by
  unfold Obligations.EncryptedRegionIsWholeBlocks
  intro s t hrun herr
  have hfits := (execEncrypt_success_iff hrun).mp herr
  obtain rfl := eq_encrypted_of_fits hfits hrun
  obtain ⟨hlen, -, -, -, -, -, -, -, hout⟩ := encrypted_spec hfits
  have hregion : (encrypted s).regionLen = s.cipherLen := by
    rw [State.regionLen, hlen, hout.tagLen, Nat.add_sub_cancel]
  have hcap := s.fits_iff.mp hfits
  rw [hregion, hlen, hout.tagLen, hout.capacity]
  unfold State.cipherLen at hcap ⊢
  omega

/-- Settles O36: nothing that ENCRYPT computes depends on ENC; a success sets it and a failure keeps it. -/
theorem encryptDoesNotReadTheFlag : Obligations.EncryptDoesNotReadTheFlag := by
  unfold Obligations.EncryptDoesNotReadTheFlag
  refine fun s b => ⟨fun hfits => ?_, fun hnot t hrun => execEncrypt_setEnc_of_not_fits b hnot hrun⟩
  have hflagged : execEncrypt (s.setEnc b) = .next (encrypted (s.setEnc b)) := execEncrypt_of_fits hfits
  exact (hflagged.trans (by rw [encrypted_setEnc])).trans (execEncrypt_of_fits hfits).symm

end Sys2Proof.Machine
end

