-- ==== Sys2Proof/Proofs/RoundTrip.lean ====
section
/-!
PROOF. The two commands together (spec/45_encrypt.md R207 to R209, spec/40_context_iv_tag.md R96,
spec/70_reset_and_hazards.md R255, spec/00_scope.md R12). The idea: a receiver that presents the sender's context and
holds the sealed payload finds the sender's ciphertext as its region and the matching tag behind it, so it opens the
payload; the round trip is the receiver that is the sender itself.
-/

namespace Sys2Proof.Machine

/-! ### What the context determines -/

theorem SameOutside.sameContext {s t : State} (h : SameOutside s t) : SameContext s t := by
  obtain ⟨-, hcfg, hsrc, hdst, hip, htp, httl, hgw, -⟩ := h
  exact ⟨hcfg, hsrc, hdst, hip, htp, httl, hgw⟩

theorem SameContext.c12 {s r : State} (h : SameContext s r) : r.c12 = s.c12 := by
  obtain ⟨-, hsrc, hdst, hip, htp, httl, hgw⟩ := h
  rw [State.c12, State.c12, hsrc, hdst, hip, htp, httl, hgw]

theorem SameContext.iv {s r : State} (h : SameContext s r) : r.iv = s.iv := by
  rw [State.iv, State.iv, h.c12, h.1]

theorem SameContext.schedule {s r : State} (h : SameContext s r) : r.schedule = s.schedule := by
  rw [State.schedule, State.schedule, h.1]

theorem tagLen_eq_of_cfg {s r : State} (h : r.cfg = s.cfg) : r.tagLen = s.tagLen := by
  rw [State.tagLen, State.fpen, h]
  rfl

theorem SameOutside.trans {s t u : State} (h : SameOutside s t) (h' : SameOutside t u) : SameOutside s u := by
  unfold SameOutside at h h' ⊢
  simp only [h', h, and_self]

/-! ### What a receiver of a sealed payload finds -/

/-- The plaintext that ENCRYPT seals: the payload and the draw (R204). -/
def State.noncedPayload (s : State) : List Byte := s.bytes 0 s.len ++ be32 s.draw

/-- A sealed payload is a block or more, and its region is as long as the ciphertext. -/
theorem received_lengths {s r : State} (hcfg : r.cfg = s.cfg) (hlen : r.len = s.cipherLen + s.tagLen) :
    16 ≤ r.len ∧ r.regionLen = s.cipherLen := by
  have htag : r.regionLen = r.len - s.tagLen := by rw [State.regionLen, tagLen_eq_of_cfg hcfg]
  have hpos : 16 ≤ s.cipherLen := by
    unfold State.cipherLen
    omega
  omega

/-- A receiver whose bytes are those of the sealed payload finds the ciphertext, and the tag behind it (R180, R184). -/
theorem received_region {s r : State} (hfits : s.Fits) (hcfg : r.cfg = s.cfg) (hlen : r.len = s.cipherLen + s.tagLen)
    (hbytes : r.bytes 0 (s.cipherLen + s.tagLen) = (encrypted s).bytes 0 (s.cipherLen + s.tagLen)) :
    r.region = s.sealed ∧ ∀ f, s.cfg.fp = some f → r.storedTag = tag12 f s.c12 s.sealed := by
  obtain ⟨-, hcipher, htag, -⟩ := encrypted_spec hfits
  obtain ⟨-, hregion⟩ := received_lengths hcfg hlen
  rw [State.bytes_append, State.bytes_append] at hbytes
  obtain ⟨hct, hbehind⟩ := List.append_inj hbytes (by simp)
  refine ⟨by rw [State.region, hregion, hct, hcipher], fun f hf => ?_⟩
  rw [State.tagLen_some hf, Nat.zero_add] at hbehind
  rw [State.storedTag, hregion, hbehind, htag f hf]

/-- A receiver with the sender's context, the flag and the sealed payload opens it (R209, R255). -/
theorem execDecrypt_of_sealed {s r : State} (hfits : s.Fits) (hctx : SameContext s r) (henc : r.enc = true)
    (hlen : r.len = s.cipherLen + s.tagLen) (hcap : r.len ≤ r.capacity)
    (hbytes : r.bytes 0 (s.cipherLen + s.tagLen) = (encrypted s).bytes 0 (s.cipherLen + s.tagLen)) :
    execDecrypt r = .next (decrypted r (s.bytes 0 s.len)) := by
  have hcfg : r.cfg = s.cfg := hctx.1
  obtain ⟨h16, -⟩ := received_lengths hcfg hlen
  obtain ⟨hregion, htag⟩ := received_region hfits hcfg hlen hbytes
  have hmatch : r.TagMatches := by
    intro f hf
    rw [hcfg] at hf
    rw [htag f hf, hctx.c12, hregion]
  have hopen : cbcDecUnpad r.schedule r.iv r.region = some s.noncedPayload := by
    rw [hregion, hctx.schedule, hctx.iv]
    exact cbcDecUnpad_cbcEncPad _ _ _
  have hnonce : s.noncedPayload.length = s.len + 4 := by simp [State.noncedPayload]
  rw [execDecrypt_of_opened henc h16 hcap hmatch hopen (by omega), hnonce, Nat.add_sub_cancel, State.noncedPayload,
    List.take_left' (s.bytes_length 0 s.len)]

/-- What such a receiver is left with: the sender's payload and its length, success, and ENC = 0. -/
theorem decrypted_payload {s r : State} (hcap : s.len ≤ r.capacity) :
    (decrypted r (s.bytes 0 s.len)).plen = s.plen ∧
      (decrypted r (s.bytes 0 s.len)).bytes 0 s.len = s.bytes 0 s.len := by
  have hm : (s.bytes 0 s.len).length = s.len := s.bytes_length 0 s.len
  obtain ⟨hlen, hbytes, -⟩ := decrypted_spec (s := r) (m := s.bytes 0 s.len) (by omega)
  rw [hm] at hlen hbytes
  exact ⟨BitVec.eq_of_toNat_eq hlen, hbytes⟩

/-- The state ENCRYPT leaves is a receiver of its own sealed payload. -/
theorem execDecrypt_encrypted {s : State} (hfits : s.Fits) :
    execDecrypt (encrypted s) = .next (decrypted (encrypted s) (s.bytes 0 s.len)) := by
  obtain ⟨hlen, -, -, -, henc, -, -, -, hout⟩ := encrypted_spec hfits
  have hcap : (encrypted s).len ≤ (encrypted s).capacity := by
    rw [hlen, hout.capacity]
    exact s.fits_iff.mp hfits
  exact execDecrypt_of_sealed hfits hout.sameContext henc hlen hcap rfl

theorem State.len_le_of_fits {s : State} (h : s.Fits) : s.len ≤ s.capacity := by
  have hgrown := s.grown_le_of_fits h
  unfold State.grown at hgrown
  omega

/-! ### The obligations -/

/-- Settles O39: the sender is a receiver of its own packet. -/
theorem decryptAfterEncryptGivesThePayloadBack : Obligations.DecryptAfterEncryptGivesThePayloadBack := by
  unfold Obligations.DecryptAfterEncryptGivesThePayloadBack
  intro s t hfits hrun
  obtain rfl := eq_encrypted_of_fits hfits hrun
  have hopened := execDecrypt_encrypted hfits
  obtain ⟨-, -, -, -, -, -, -, -, hout⟩ := encrypted_spec hfits
  obtain ⟨hplen, hbytes⟩ := decrypted_payload (s := s) (r := encrypted s) (by
    rw [hout.capacity]
    exact State.len_le_of_fits hfits)
  exact ⟨_, hopened, rfl, rfl, rfl, hplen, hbytes, hout.trans (exec_next (i := .decrypt) hopened).1⟩

/-- Settles O40: the receiver's PLEN, flag, context and bytes are what opening needs. -/
theorem receiverOpensTheSendersPacket : Obligations.ReceiverOpensTheSendersPacket := by
  unfold Obligations.ReceiverOpensTheSendersPacket
  intro s t r hfits hrun hctx henc hplen hcap hbytes
  obtain rfl := eq_encrypted_of_fits hfits hrun
  obtain ⟨hlen, -⟩ := encrypted_spec hfits
  have hrlen : r.len = (encrypted s).len := congrArg BitVec.toNat hplen
  rw [hlen] at hbytes
  have hopened := execDecrypt_of_sealed hfits hctx henc (hrlen.trans hlen) (hrlen ▸ hcap) hbytes
  obtain ⟨hplen', hbytes'⟩ := decrypted_payload (s := s) (r := r) (by
    have hshort : s.len ≤ s.cipherLen := by
      unfold State.cipherLen
      omega
    omega)
  exact ⟨_, hopened, rfl, rfl, hplen', hbytes'⟩

/-- Settles O41: the sender's tag is that of its header and ciphertext; a receiver that matched it on other ones would
be a collision, and one that has the same ones matches no other tag. -/
theorem tamperedPacketsAreRejected : Obligations.TamperedPacketsAreRejected := by
  unfold Obligations.TamperedPacketsAreRejected
  intro s t r f hfits hfp hrun hcfg henc hplen hcap
  obtain rfl := eq_encrypted_of_fits hfits hrun
  obtain ⟨hlen, -, -, -, -, -, -, -, hout⟩ := encrypted_spec hfits
  have hrlen : r.len = (encrypted s).len := congrArg BitVec.toNat hplen
  obtain ⟨hregion, htag⟩ := received_region hfits hout.sameContext.1 hlen rfl
  have hsent : (encrypted s).storedTag = tag12 f s.c12 (encrypted s).region := by rw [htag f hfp, hregion]
  have hrfp : r.cfg.fp = some f := by rw [hcfg, hfp]
  obtain ⟨h16, -⟩ := received_lengths hcfg (hrlen.trans hlen)
  have hrejected (hbad : r.storedTag ≠ tag12 f r.c12 r.region) :
      execDecrypt r = .next (r.complete .integrityFailure) :=
    execDecrypt_of_bad_tag henc h16 (hrlen ▸ hcap) (mt (tagMatches_iff_of_fp hrfp).mp hbad)
  refine ⟨fun hstored hdiffer hcollision => hrejected fun hmatch => hdiffer (hcollision ?_),
    fun hc12 hreg hstored => hrejected fun hmatch => hstored ?_⟩
  · rw [← hmatch, hstored, hsent]
  · rw [hmatch, hsent, hc12, hreg]

/-- Settles O42: the draw is the nonce of the plaintext, and nothing else of the two runs differs. -/
theorem ciphertextsDifferExactlyWithTheDraws : Obligations.CiphertextsDifferExactlyWithTheDraws := by
  unfold Obligations.CiphertextsDifferExactlyWithTheDraws
  intro s x y more hfits
  have hrun (z : BitVec 32) : ∃ t, execEncrypt { s with rng := z :: more } = .next t ∧ t.err = .success ∧
      t.bytes 0 s.cipherLen = cbcEncPad s.schedule s.iv (s.bytes 0 s.len ++ be32 z) := by
    have hz : State.Fits { s with rng := z :: more } := hfits
    obtain ⟨-, hcipher, -, herr, -⟩ := encrypted_spec hz
    exact ⟨_, execEncrypt_of_fits hz, herr, hcipher⟩
  obtain ⟨t, ht, hterr, htbytes⟩ := hrun x
  obtain ⟨u, hu, huerr, hubytes⟩ := hrun y
  refine ⟨t, u, ht, hu, hterr, huerr, ?_⟩
  rw [s.roundUp16_len, htbytes, hubytes]
  exact cbcEncPad_nonce_iff _ _ _ x y

/-- Settles O43: the second ENCRYPT is opened like any other, and leaves ENC = 0. -/
theorem doubleEncryptionNeedsTheHost : Obligations.DoubleEncryptionNeedsTheHost := by
  unfold Obligations.DoubleEncryptionNeedsTheHost
  intro s t u _ _ hfits hrun
  obtain ⟨v, hopened, herr, -, henc, hplen, hbytes, -⟩ := decryptAfterEncryptGivesThePayloadBack t u hfits hrun
  exact ⟨v, hopened, herr, henc, hplen, hbytes, execDecrypt_of_unflagged henc⟩

end Sys2Proof.Machine
end

