-- ==== Sys2Proof/Proofs/ResultUnread.lean ====
section
/-!
PROOF. ERR is an input of no command (spec/60_exceptions.md R231). The idea: no step of a command looks at ERR, and
every answer ends in `State.complete`, which writes it.
-/

namespace Sys2Proof.Machine

theorem encrypted_err (s : State) (e : Err) : encrypted { s with err := e } = encrypted s := by
  cases hfp : s.cfg.fp with
  | none =>
    rw [encrypted_of_none hfp, encrypted_of_none (s := { s with err := e }) hfp]
    rfl
  | some f =>
    rw [encrypted_of_some hfp, encrypted_of_some (s := { s with err := e }) hfp]
    rfl

theorem execEncrypt_err (s : State) (e : Err) : execEncrypt { s with err := e } = execEncrypt s := by
  rw [execEncrypt_eq, execEncrypt_eq, encrypted_err]
  rfl

/-- A payload longer than the buffer is not stored (R10). -/
theorem storePayload_fault {s : State} {m : List Byte} (h : s.capacity < m.length) :
    storePayload s m = .fault (.payloadRange 0 m.length) := by
  rw [storePayload, State.memWrite, if_neg (by omega), Part.fault_andThen]

/-- The store carries ERR along, and the completion behind it writes it. -/
theorem storePayload_err (s : State) (e : Err) (m : List Byte) :
    storePayload { s with err := e } m = storePayload s m := by
  by_cases hfit : m.length ≤ s.capacity
  · rw [storePayload_ok hfit, storePayload_ok (s := { s with err := e }) hfit]
    rfl
  · have hlong : s.capacity < m.length := Nat.lt_of_not_le hfit
    rw [storePayload_fault hlong, storePayload_fault (s := { s with err := e }) hlong]

theorem decryptSteps_err (s : State) (e : Err) : decryptSteps { s with err := e } = decryptSteps s := by
  unfold decryptSteps
  simp only [storePayload_err]
  rfl

/-- Settles O45: the steps of both commands are the same, and a failure completes with its own error. -/
theorem noCommandReadsTheResult : Obligations.NoCommandReadsTheResult := by
  unfold Obligations.NoCommandReadsTheResult
  intro s i e
  cases i with
  | encrypt => exact execEncrypt_err s e
  | decrypt =>
    show execDecrypt { s with err := e } = execDecrypt s
    rw [execDecrypt, decryptSteps_err]
    rfl

end Sys2Proof.Machine
end
